-- ==== Sys2Proof/Word.lean ====
section
/-! DEFINITION. The word types of the machine (spec/00_scope.md R4, R5). Every value is unsigned. -/

namespace Sys2Proof

/-- `u8`: a memory cell, an opcode, an operand (R4 `CELL_BITS` = 8, R5). -/
abbrev Byte := BitVec 8

/-- `uREGW`: the contents of a general register, `REGW` = 8 (R4, decision D1; notes/assumptions/1.md). -/
abbrev RegWord := BitVec 8

/-- `u9`: the program counter, `PCW` = 9 (R4, R14, decision D4; notes/assumptions/9.md). -/
abbrev PcWord := BitVec 9

end Sys2Proof
end

