-- ==== Sys2Proof/Syntax.lean ====
section
/-! DEFINITION. The instructions, one constructor per row of spec/opcode_table.json, and the types of the opcode
map (spec/30_encoding.md). -/

namespace Sys2Proof

/-- The four instructions (R55). An operand is the whole operand byte, unmasked (R51, R52): an index byte of 8 to 255
is a legal encoding, and using it raises `InvalidRegister`. -/
inductive Instr where
  /-- HLT, 0x01: halt the engine (R90). -/
  | hlt
  /-- LDI a, b, 0x82: load the immediate byte `b` into register `a` (R95). -/
  | ldi (a b : Byte)
  /-- MUL a, b, 0xA2: multiply register `a` by register `b` (R103). -/
  | mul (a b : Byte)
  /-- PRN a, 0x47: emit the value of register `a` (R110). -/
  | prn (a : Byte)
  deriving DecidableEq, Repr

/-- The three formats, one per length (R50). -/
inductive Format where
  /-- `OP`: the opcode alone. -/
  | op
  /-- `OP_A`: the opcode, then `operand_a`. -/
  | opA
  /-- `OP_A_B`: the opcode, then `operand_a`, then `operand_b`. -/
  | opAB
  deriving DecidableEq, Repr

/-- The variant decode selects, before its operands (R73). -/
inductive Variant where
  | hlt | ldi | mul | prn
  deriving DecidableEq, Repr

/-- One row of the opcode map (R55). -/
structure OpcodeRow where
  variant : Variant
  /-- The bits of the opcode byte the decoder compares. -/
  mask    : Byte
  /-- What those bits must be. -/
  pattern : Byte
  format  : Format
  deriving DecidableEq, Repr

/-- Why a latched triple is no instruction. -/
inductive DecodeError where
  /-- The opcode byte has no row of the map (R58). -/
  | unknownInstruction (op : Byte)
  deriving DecidableEq, Repr

/-- Why a list of bytes, read as code, is no straight line of instructions (R60). -/
inductive CodeError where
  /-- An opcode byte is rejected. -/
  | rejected (e : DecodeError)
  /-- The bytes end before the instruction does. The engine never meets this: it always fetches three bytes (R71). -/
  | truncated
  deriving DecidableEq, Repr

end Sys2Proof
end

