-- ==== Sys2Proof/Decode.lean ====
section
/-! DEFINITION. The block `decoder`: the opcode map, decoding and encoding (spec/30_encoding.md R50 to R60). -/

namespace Sys2Proof

/-- The complete opcode map, the constant Dispatch Table (R23, R55). The decoder compares all 8 bits. -/
def dispatchTable : List OpcodeRow :=
  [ ⟨.hlt, 0xFF, 0x01, .op⟩,
    ⟨.ldi, 0xFF, 0x82, .opAB⟩,
    ⟨.mul, 0xFF, 0xA2, .opAB⟩,
    ⟨.prn, 0xFF, 0x47, .opA⟩ ]

/-- A row matches an opcode byte (R55). -/
def OpcodeRow.accepts (r : OpcodeRow) (op : Byte) : Bool := op &&& r.mask == r.pattern

/-- "look up the opcode byte in the Dispatch Table" (R73): the row, or absent. -/
def lookupOpcode (op : Byte) : Option OpcodeRow := dispatchTable.find? (·.accepts op)

/-- The total byte count of a format, opcode included (R50). -/
def Format.width : Format → Nat
  | .op => 1
  | .opA => 2
  | .opAB => 3

/-- The length of an instruction, a function of its opcode byte alone (R54). -/
def widthOfOpcode (op : Byte) : Option Nat := (lookupOpcode op).map (·.format.width)

/-- The instruction of a variant and the two operand bytes; one that has fewer operands ignores the rest (R74, R76). -/
def Variant.build (v : Variant) (a b : Byte) : Instr :=
  match v with
  | .hlt => .hlt
  | .ldi => .ldi a b
  | .mul => .mul a b
  | .prn => .prn a

/-- Decode of the latched triple (R70, R73): the single point where an unrecognised opcode byte is rejected (R58). -/
def decode (op a b : Byte) : Except DecodeError Instr :=
  match lookupOpcode op with
  | some row => .ok (row.variant.build a b)
  | none => .error (.unknownInstruction op)

/-- The instruction a list of bytes begins with, and the bytes after its own width (R50, R60). -/
def decodeBytes : List Byte → Except CodeError (Instr × List Byte)
  | [] => .error .truncated
  | op :: rest =>
    match lookupOpcode op with
    | none => .error (.rejected (.unknownInstruction op))
    | some row =>
      match row.format, rest with
      | .op, r => .ok (row.variant.build 0 0, r)
      | .opA, a :: r => .ok (row.variant.build a 0, r)
      | .opAB, a :: b :: r => .ok (row.variant.build a b, r)
      | _, _ => .error .truncated

/-- Instruction boundaries of a straight line: widths added from its first byte (R60); `fuel` bounds the walk. -/
def disassembleFrom : Nat → List Byte → Except CodeError (List Instr)
  | _, [] => .ok []
  | 0, _ :: _ => .error .truncated
  | fuel + 1, bytes =>
    match decodeBytes bytes with
    | .error e => .error e
    | .ok (i, rest) =>
      match disassembleFrom fuel rest with
      | .error e => .error e
      | .ok is => .ok (i :: is)

/-- The instructions of a list of bytes read as code from its first byte (R60): every instruction has at least one
byte, so as many turns as bytes suffice. -/
def disassemble (bytes : List Byte) : Except CodeError (List Instr) := disassembleFrom bytes.length bytes

/-- The bytes of an instruction in ascending address order (R36, R50, R55, R61). -/
def encode : Instr → List Byte
  | .hlt => [0x01]
  | .ldi a b => [0x82, a, b]
  | .mul a b => [0xA2, a, b]
  | .prn a => [0x47, a]

/-- The bytes of a straight line of instructions (R60). -/
def assemble : List Instr → List Byte
  | [] => []
  | i :: is => encode i ++ assemble is

/-- The width of an instruction, opcode included: 1, 2 or 3 (R54, R55). -/
def Instr.width : Instr → Nat
  | .hlt => 1
  | .ldi _ _ => 3
  | .mul _ _ => 3
  | .prn _ => 2

/-- The opcode byte of an instruction (R55). -/
def Instr.opcode : Instr → Byte
  | .hlt => 0x01
  | .ldi _ _ => 0x82
  | .mul _ _ => 0xA2
  | .prn _ => 0x47

/-- Byte `k` of an instruction whose bits are `w`, numbered as opcode_table.json numbers them: byte 0 is bits 7..0, the
next byte bits 15..8. Every bit from `nbits` on is 0. -/
def tableByte (nbits w k : Nat) : Byte := BitVec.ofNat 8 ((w % 2 ^ nbits) / 2 ^ (8 * k))

/-- The instruction the decoder reads from an instruction whose bits are `w` (the host's question; notes/assumptions/24.md). -/
def decodeTableWord (nbits w : Nat) : Option Instr :=
  match decode (tableByte nbits w 0) (tableByte nbits w 1) (tableByte nbits w 2) with
  | .ok i => some i
  | .error _ => none

end Sys2Proof
end

