-- ==== Sys2Proof/Config.lean ====
section
/-! DEFINITION. What an implementation fixes (spec/00_scope.md R4) and the one free value the spec leaves open. -/

namespace Sys2Proof.Config

/-- `MEM_SIZE`: the number of memory cells, addresses 0 to 255 (R4, R30). -/
abbrev memSize : Nat := 256

/-- `NREGS`: the number of general registers, indices 0 to 7 (R4, R11). -/
abbrev nregs : Nat := 8

/-- `EXIT_OK`: the exit status after HLT (R4, R21). -/
abbrev exitOk : Nat := 0

/-- FREE VALUE. `EXIT_FAULT` is OPEN, "any non-zero value" (R4, decision D9): nothing here fixes by how much it
exceeds 1 (notes/assumptions/8.md). -/
opaque exitFaultExcess : Nat

/-- `EXIT_FAULT`: the exit status after a fault; a claim may assume only that it is not 0 (R21, U3). -/
def exitFault : Nat := exitFaultExcess + 1

end Sys2Proof.Config
end

