-- ==== Sys2Proof/Machine/State.lean ====
section
/-! DEFINITION. The whole state of the machine (spec/10_state.md R10) as plain data, its reset value (R25), and the
reasons a step can give no next state. -/

namespace Sys2Proof.Machine

/-- The engine state, the spec's `state` (R18; `Faulted` is decision D6). -/
inductive EngineState where
  /-- Constructed, memory possibly loaded; waits for the host. -/
  | ready
  /-- Inside a run: the only state in which a step exists. -/
  | running
  /-- Terminal, after HLT. -/
  | halted
  /-- Terminal, after a fault. -/
  | faulted
  deriving DecidableEq, Repr

/-- The fault causes (R120). -/
inductive Cause where
  /-- A memory address above 255 (R121). -/
  | outOfBounds
  /-- A register index above 7 (R122). -/
  | invalidRegister
  /-- An ALU operation tag that is neither ADD nor MUL (R123). -/
  | unsupportedOperation
  /-- An opcode byte outside the map (R124). -/
  | unknownInstruction
  deriving DecidableEq, Repr

/-- The pair `(cause, info)` of a raised fault; `info` is the number the cause reports (R20, R120). -/
structure FaultRecord where
  cause : Cause
  info  : Nat
  deriving DecidableEq, Repr

/-- The instruction latch: the triple of the last complete fetch (R24, R72). -/
structure Latch where
  opcode   : Byte
  operandA : Byte
  operandB : Byte
  deriving DecidableEq, Repr

/-- The state of the machine: "exactly these items and nothing else" (R10). -/
structure State where
  /-- Memory, as the cells that do not hold 0x00, addresses rising (R30; canonical form `Memory.wf`). -/
  mem    : List Host.Cell
  /-- The eight general registers (R11). -/
  x      : Vector RegWord 8
  /-- The program counter (R14). -/
  pc     : PcWord
  /-- The engine state (R18). -/
  engine : EngineState
  /-- The fault record (R20). -/
  fault  : Option FaultRecord
  /-- The instruction latch (R24). -/
  ir     : Latch
  /-- The output log, oldest value first (R22). -/
  out    : List RegWord
  deriving DecidableEq, Repr

/-- The table of reset values (R25, R150). The registers' zeros are the spec's own choice D3. -/
def State.reset : State where
  mem    := []
  x      := Vector.replicate 8 0
  pc     := 0
  engine := .ready
  fault  := none
  ir     := ⟨0x00, 0x00, 0x00⟩
  out    := []

/-- Reasons a step answers `.fault`: NONE. Every fault of this hardware is a fault entry that the spec describes (R126):
the step answers a NEXT state whose engine is `faulted` and whose record is set. So no one raises a `Fault`, and that is
safe (notes/assumptions/4.md). -/
inductive Fault where
  deriving DecidableEq, Repr

/-- Reasons there is no next state. -/
inductive Refusal where
  /-- Raised by an arm of `exec` whose instruction has no meaning yet; no arm does. Safe. -/
  | notModelled (mnemonic : String)
  /-- Raised by `step` when the engine is not Running: "A step exists only when it is true" (R19, R70); `Halted` and
  `Faulted` are terminal, `Ready` waits for the host (R18). Safe: no claim about a step that does not exist can be proved
  (notes/assumptions/5.md). -/
  | notRunning (engine : EngineState)
  /-- Raised by the host operations HostWrite, Load and Run outside `Ready`: they have "no meaning in this spec: a model
  refuses" them (R175). Safe (notes/assumptions/6.md). -/
  | hostNotReady (engine : EngineState)
  /-- Raised by the input ports when more than one strobe is given at once, whose result the spec does not state (R172).
  Safe (notes/assumptions/13.md). -/
  | strobesTogether
  deriving DecidableEq, Repr

end Sys2Proof.Machine
end

