-- ==== Sys2Proof/Machine/Operands.lean ====
section
/-! DEFINITION. The operand forms (spec/30_encoding.md R52, R53): a register index byte and an immediate byte. -/

namespace Sys2Proof.Machine

/-- A register operand: the whole byte as an unsigned number, valid when 0 to 7, never masked (R11, R12, R52). -/
def regIndex (i : Byte) : Except FaultRecord (Fin 8) :=
  if h : i.toNat < 8 then .ok ⟨i.toNat, h⟩ else .error ⟨.invalidRegister, i.toNat⟩

/-- The one immediate: LDI's `operand_b`, `zext_REGW` of the byte (R53). -/
def immediate (b : Byte) : RegWord := b.setWidth 8

end Sys2Proof.Machine
end

