-- ==== Sys2Proof/Machine/Ops.lean ====
section
/-! DEFINITION. The named operations over memory, registers, the program counter, the output log and the engine, and
taking a fault (spec/00_scope.md R6). -/

namespace Sys2Proof.Machine

/-! ## Memory (spec/20_memory.md) -/

/-- What an unlisted cell holds: memory is "zero-initialized at CPU construction" (R25, R35). -/
def Memory.resetByte : Byte := 0x00

/-- The canonical form of a memory: addresses strictly rising, each in 0 to 255 (R30), no entry equal to what an
unlisted address reads as. -/
abbrev Memory.wf (m : List Host.Cell) : Prop :=
  m.Pairwise (fun c d => c.1 < d.1) ∧ ∀ c ∈ m, c.1 < 256 ∧ c.2 ≠ Memory.resetByte

/-- The byte in cell `a`. -/
def Memory.get : List Host.Cell → Nat → Byte
  | [], _ => Memory.resetByte
  | (k, w) :: m, a => if k = a then w else Memory.get m a

/-- A cell put in front of a list, unless it holds what an unlisted address reads as. -/
def Memory.cons (a : Nat) (v : Byte) (m : List Host.Cell) : List Host.Cell :=
  if v = Memory.resetByte then m else (a, v) :: m

/-- The memory with cell `a` holding `v`, every other cell as before, in canonical form. -/
def Memory.set : List Host.Cell → Nat → Byte → List Host.Cell
  | [], a, v => Memory.cons a v []
  | (k, w) :: m, a, v =>
    if a < k then Memory.cons a v ((k, w) :: m)
    else if a = k then Memory.cons a v m
    else (k, w) :: Memory.set m a v

/-- `MemRead(addr, 1)`: `OutOfBounds(addr)` above 255, never reduced modulo 256 (R32, R34). -/
def State.memRead (s : State) (addr : Nat) : Except FaultRecord Byte :=
  if addr < Config.memSize then .ok (Memory.get s.mem addr) else .error ⟨.outOfBounds, addr⟩

/-- `MemWrite(addr, 1, v)` (R33). No instruction calls it; the host's loader does (R31). -/
def State.memWrite (s : State) (addr : Nat) (v : Byte) : Except FaultRecord State :=
  if addr < Config.memSize then .ok { s with mem := Memory.set s.mem addr v } else .error ⟨.outOfBounds, addr⟩

/-! ## Registers (spec/10_state.md) -/

/-- `x[i]` (R11): `InvalidRegister(i)` for an index above 7. -/
def State.readReg (s : State) (i : Byte) : Except FaultRecord RegWord :=
  match regIndex i with
  | .ok k => .ok s.x[k]
  | .error r => .error r

/-- `x[i] <- v` (R12): stored as given, without masking; every other register keeps its value. -/
def State.writeReg (s : State) (i : Byte) (v : RegWord) : Except FaultRecord State :=
  match regIndex i with
  | .ok k => .ok { s with x := s.x.set k v }
  | .error r => .error r

/-! ## Program counter, latch, output log, engine -/

/-- `pc <- pc + width`, a 9-bit sum (R15). From a `pc` at which a step completes it never wraps (R16). -/
def State.advancePc (s : State) (width : Nat) : State := { s with pc := s.pc + BitVec.ofNat 9 width }

/-- `ir <- (op, a, b)` (R72). -/
def State.latch (s : State) (l : Latch) : State := { s with ir := l }

/-- `emit(v)`: appended at the end of the output log, always at once (R22, R112). -/
def State.emit (s : State) (v : RegWord) : State := { s with out := s.out ++ [v] }

/-- `state <- e` (R18). -/
def State.setEngine (s : State) (e : EngineState) : State := { s with engine := e }

/-! ## Taking a fault (spec/60_exceptions.md) -/

/-- `raise F(info)` (R126): the engine becomes `Faulted`, the record is set, nothing else changes, `pc` included. No
state is saved elsewhere and control goes nowhere: there is no vector and no handler. There is no return from it (R130);
only reset leaves `Faulted`. -/
def State.raise (s : State) (r : FaultRecord) : State := { s with engine := .faulted, fault := some r }

/-- The end of a handler that did its effect on `s`: the next state it left, or, where it raised, the fault entry on `s`
itself, since every check comes before the one write (R75, R127). -/
def State.finish (s : State) (effect : Except FaultRecord State) : Host.Outcome State Fault Refusal :=
  match effect with
  | .ok t => .next t
  | .error r => .next (s.raise r)

end Sys2Proof.Machine
end

