-- ==== Sys2Proof/Machine/Alu.lean ====
section
/-! DEFINITION. The block `alu` (spec/43_alu_mul.md R100 to R105) and its operation over the register file. -/

namespace Sys2Proof.Machine

/-- The operation tag, a two-bit signal `alu_op` (R105, decision D17; notes/assumptions/11.md). -/
abbrev AluOp := BitVec 2

/-- Tag 0, ADD. No opcode selects it (R56, R102). -/
def AluOp.add : AluOp := 0

/-- Tag 1, MUL. -/
def AluOp.mul : AluOp := 1

/-- The ALU's pure function (R100): the exact natural-number result reduced modulo 2^`REGW` (R101); any other tag
raises `UnsupportedOperation`. -/
def alu (op : AluOp) (p q : RegWord) : Except FaultRecord RegWord :=
  if op = AluOp.add then .ok (BitVec.ofNat 8 (p.toNat + q.toNat))
  else if op = AluOp.mul then .ok (BitVec.ofNat 8 (p.toNat * q.toNat))
  else .error ⟨.unsupportedOperation, op.toNat⟩

/-- The ALU's tag check, made before the registers are read (R105, R129, decision D8). -/
def aluTagCheck (op : AluOp) : Except FaultRecord Unit :=
  if op = AluOp.add ∨ op = AluOp.mul then .ok () else .error ⟨.unsupportedOperation, op.toNat⟩

/-- "`apply(operation, dest_index, src_index)`" (R103): read both registers, destination index first, compute, write the
destination. Both reads see the old values (R106). -/
def State.aluApply (s : State) (op : AluOp) (a b : Byte) : Except FaultRecord State :=
  match aluTagCheck op with
  | .error r => .error r
  | .ok _ =>
    match s.readReg a with
    | .error r => .error r
    | .ok p =>
      match s.readReg b with
      | .error r => .error r
      | .ok q =>
        match alu op p q with
        | .error r => .error r
        | .ok v => s.writeReg a v

end Sys2Proof.Machine
end

