-- ==== Sys2Proof/Machine/Arith.lean ====
section
/-! DEFINITION. The register-writing instructions: LDI (spec/42_ldi.md) and MUL (spec/43_alu_mul.md). -/

namespace Sys2Proof.Machine

/-- LDI a, b (R95): `x[a] <- zext(b)`, `pc` advances by 3; `InvalidRegister(a)` for `a` above 7. -/
def execLdi (a b : Byte) (s : State) : Host.Outcome State Fault Refusal :=
  s.finish <|
    match s.writeReg a (immediate b) with
    | .ok t => .ok (t.advancePc 3)
    | .error r => .error r

/-- MUL a, b (R103): `x[a] <- x[a] * x[b] mod 2^REGW`, `pc` advances by 3; `InvalidRegister` for `a`, then for `b`. -/
def execMul (a b : Byte) (s : State) : Host.Outcome State Fault Refusal :=
  s.finish <|
    match s.aluApply AluOp.mul a b with
    | .ok t => .ok (t.advancePc 3)
    | .error r => .error r

end Sys2Proof.Machine
end

