-- ==== Sys2Proof/Machine/Engine.lean ====
section
/-! DEFINITION. The system instructions (spec/41_hlt.md R94): HLT and PRN. -/

namespace Sys2Proof.Machine

/-- HLT (R90): the engine becomes `Halted`, `pc` advances by 1. It raises nothing of its own. -/
def execHlt (s : State) : Host.Outcome State Fault Refusal :=
  s.finish (.ok ((s.setEngine .halted).advancePc 1))

/-- PRN a (R110): emit `x[a]`, `pc` advances by 2; `InvalidRegister(a)` for `a` above 7. -/
def execPrn (a : Byte) (s : State) : Host.Outcome State Fault Refusal :=
  s.finish <|
    match s.readReg a with
    | .ok v => .ok ((s.emit v).advancePc 2)
    | .error r => .error r

end Sys2Proof.Machine
end

