-- ==== Sys2Proof/Machine/Dispatch.lean ====
section
/-! DEFINITION. The block `dispatch_mux` (spec/40_fetch_decode_dispatch.md R74): exactly one handler runs. -/

namespace Sys2Proof.Machine

def exec (i : Instr) (s : State) : Host.Outcome State Fault Refusal :=
  match i with
  | .hlt => Sys2Proof.Machine.execHlt s
  | .ldi a b => Sys2Proof.Machine.execLdi a b s
  | .mul a b => Sys2Proof.Machine.execMul a b s
  | .prn a => Sys2Proof.Machine.execPrn a s

end Sys2Proof.Machine
end

