-- ==== Sys2Proof/Machine/Fetch.lean ====
section
/-! DEFINITION. The block `fetch_unit` (spec/40_fetch_decode_dispatch.md R71): the fixed three-byte lookahead window. -/

namespace Sys2Proof.Machine

/-- Reads `pc`, `pc+1`, `pc+2` in that order, whatever the opcode; the first address above 255 raises `OutOfBounds`. The
sums are natural-number sums, not reduced (R70, R71). -/
def State.fetch (s : State) : Except FaultRecord Latch :=
  match s.memRead s.pc.toNat with
  | .error r => .error r
  | .ok op =>
    match s.memRead (s.pc.toNat + 1) with
    | .error r => .error r
    | .ok a =>
      match s.memRead (s.pc.toNat + 2) with
      | .error r => .error r
      | .ok b => .ok ⟨op, a, b⟩

/-- Three bytes placed at `p`, `p+1`, `p+2`. -/
def Memory.place (m : List Host.Cell) (p : Nat) (b0 b1 b2 : Byte) : List Host.Cell :=
  Memory.set (Memory.set (Memory.set m p b0) (p + 1) b1) (p + 2) b2

/-- Where a placed instruction is fetched from: the program counter, or address 0 where no fetch at it can succeed. -/
def State.placeAt (s : State) : PcWord := if s.pc.toNat ≤ 253 then s.pc else 0

end Sys2Proof.Machine
end

