-- ==== Sys2Proof/Machine/Cycle.lean ====
section
/-! DEFINITION. One iteration of the fetch-decode-execute loop (spec/40_fetch_decode_dispatch.md R70). -/

namespace Sys2Proof.Machine

/-- What decode's rejection raises: the cause and the offending opcode value (R58, R124). -/
def decodeFault : DecodeError → FaultRecord
  | .unknownInstruction op => ⟨.unknownInstruction, op.toNat⟩

/-- The step of a running engine (R70): fetch, latch, decode, dispatch. A fault of the fetch leaves `ir` as it was; one
raised later finds `ir` already written (R72, R126). -/
def State.cycle (s : State) : Host.Outcome State Fault Refusal :=
  match s.fetch with
  | .error r => .next (s.raise r)
  | .ok l =>
    match decode l.opcode l.operandA l.operandB with
    | .error e => .next ((s.latch l).raise (decodeFault e))
    | .ok i => exec i (s.latch l)

end Sys2Proof.Machine
end

