-- ==== Sys2Proof/Machine/Flags.lean ====
section
/-! DEFINITION. Flags. There is no flags register and there are no condition codes (spec/10_state.md R17): no
instruction records carry, overflow, zero or sign, so no flag computation exists. What the spec calls a flag is the
engine's Running flag (R19), a function of the state, as is the exit status (R21). -/

namespace Sys2Proof.Machine

/-- The Running flag: the predicate `state = Running` (R19). -/
def State.running (s : State) : Bool := decide (s.engine = .running)

/-- The engine is in a terminal state: the end of a run (R18, R78). -/
def State.terminal (s : State) : Bool := decide (s.engine = .halted ∨ s.engine = .faulted)

/-- The exit status (R21): 0 in `Halted`, the non-zero `EXIT_FAULT` in `Faulted`, not defined otherwise. -/
def State.exitStatus (s : State) : Option Nat :=
  match s.engine with
  | .halted => some Config.exitOk
  | .faulted => some Config.exitFault
  | .ready => none
  | .running => none

end Sys2Proof.Machine
end

