-- ==== Sys2Proof/Machine/Step.lean ====
section
/-! DEFINITION. The step: it exists only while the engine runs (spec/10_state.md R19, spec/40_fetch_decode_dispatch.md
R70), and the placing of one instruction where it fetches. -/

namespace Sys2Proof.Machine

/-- One step (R70). The Running flag is read once, before the fetch (R19). Outside `Running` no step exists (R18). -/
def step (s : State) : Host.Outcome State Fault Refusal :=
  if s.running then s.cycle else .refused (.notRunning s.engine)

/-- `s` with one instruction stored where `step` fetches, the engine started: it stands for the host's Load and Run
(R177, R178; notes/assumptions/7.md). -/
def State.withFetchWord (s : State) (nbits w : Nat) : State :=
  { s with
    mem := Memory.place s.mem s.placeAt.toNat (tableByte nbits w 0) (tableByte nbits w 1) (tableByte nbits w 2)
    pc := s.placeAt
    engine := .running
    fault := none }

end Sys2Proof.Machine
end

