-- ==== Sys2Proof/Machine/HostOps.lean ====
section
/-! DEFINITION. What the host may do (spec/80_blocks_and_interfaces.md R175 to R180, spec/70_reset_and_hazards.md R150):
Reset, HostWrite, Load, Run, Observe. -/

namespace Sys2Proof.Machine

/-- Reset, in any engine state: every piece of state gets its reset value (R150). -/
def hostReset (_ : State) : State := State.reset

/-- An operation allowed in `Ready` only; elsewhere it has no meaning and is refused (R175, decisions D11, D13). -/
def inReady (s : State) (effect : Host.Outcome State Fault Refusal) : Host.Outcome State Fault Refusal :=
  if s.engine = .ready then effect else .refused (.hostNotReady s.engine)

/-- HostWrite(addr, v) (R176): one `MemWrite`; out of bounds it faults as in a step. -/
def hostWrite (addr : Nat) (v : Byte) (s : State) : Host.Outcome State Fault Refusal :=
  inReady s (s.finish (s.memWrite addr v))

/-- The loop of Load from address `k` on: a raise ends it, the cells already written stay written (R6, R177). -/
def loadFrom : Nat → List Byte → State → State
  | _, [], s => s
  | k, v :: rest, s =>
    match s.memWrite k v with
    | .ok t => loadFrom (k + 1) rest t
    | .error r => s.raise r

/-- Load(image) (R177): HostWrite of each byte, in order, from address 0. -/
def hostLoad (image : List Byte) (s : State) : Host.Outcome State Fault Refusal :=
  inReady s (.next (loadFrom 0 image s))

/-- "while state = Running do Step" (R77), at most `fuel` times. -/
def runWhile : Nat → State → Host.Outcome State Fault Refusal
  | 0, s => .next s
  | fuel + 1, s =>
    if s.running then
      match step s with
      | .next t => runWhile fuel t
      | .fault r => .fault r
      | .refused r => .refused r
    else .next s

/-- The most steps a run has (R79); the length of the loop's fuel, not a rule of the machine (notes/assumptions/16.md). -/
def maxRunSteps : Nat := 128

/-- Run (R77, R178): `state <- Running`, then steps until the run ends. -/
def hostRun (s : State) : Host.Outcome State Fault Refusal :=
  inReady s (runWhile maxRunSteps (s.setEngine .running))

/-- What Observe returns (R179). -/
structure Observation where
  engine     : EngineState
  fault      : Option FaultRecord
  pc         : PcWord
  out        : List RegWord
  exitStatus : Option Nat
  deriving DecidableEq, Repr

/-- Observe, in any state (R179): it changes nothing. -/
def State.observe (s : State) : Observation := ⟨s.engine, s.fault, s.pc, s.out, s.exitStatus⟩

end Sys2Proof.Machine
end

