-- ==== Sys2Proof/Machine/Ports.lean ====
section
/-! DEFINITION. The ports of the core (spec/80_blocks_and_interfaces.md R172 to R174, decision D21): the outputs as views
of the state, the input strobes as host operations. `clk` has no effect of its own: no rule depends on it (R157). -/

namespace Sys2Proof.Machine

/-- The `state` port: 0 `Ready`, 1 `Running`, 2 `Halted`, 3 `Faulted` (R172). -/
def EngineState.code : EngineState → BitVec 2
  | .ready => 0
  | .running => 1
  | .halted => 2
  | .faulted => 3

/-- The numeric code of a cause (R120, decision D7). -/
def Cause.code : Cause → BitVec 3
  | .outOfBounds => 1
  | .invalidRegister => 2
  | .unsupportedOperation => 3
  | .unknownInstruction => 4

/-- The `state` port. -/
def State.statePort (s : State) : BitVec 2 := s.engine.code

/-- The `fault_cause` port: 0 none, else the code (R172). -/
def State.faultCausePort (s : State) : BitVec 3 :=
  match s.fault with
  | none => 0
  | some r => r.cause.code

/-- The `fault_info` port: the `info` of the fault, 0 when none (R172), in 9 bits (notes/assumptions/12.md). -/
def State.faultInfoPort (s : State) : BitVec 9 :=
  match s.fault with
  | none => 0
  | some r => BitVec.ofNat 9 r.info

/-- The `pc_out` port. -/
def State.pcOutPort (s : State) : PcWord := s.pc

/-- The `dbg_reg[0..7]` ports. -/
def State.dbgRegPort (s : State) (i : Fin 8) : RegWord := s.x[i]

/-- The read-only debug port on the memory: `dbg_mem_data` for `dbg_mem_addr`; the spec gives no data above 255. -/
def State.dbgMemPort (s : State) (addr : BitVec 9) : Option Byte :=
  match s.memRead addr.toNat with
  | .ok v => some v
  | .error _ => none

/-- The output port over one step from `s` to `t`: `out_data` while `out_valid` pulses, one pulse per completed PRN
(R172, R173); none when there is no pulse. -/
def outPulse (s t : State) : Option RegWord := (t.out.drop s.out.length).head?

/-- The input ports (R172). -/
structure InputPorts where
  rst       : Bool
  hostWe    : Bool
  hostAddr  : BitVec 9
  hostWdata : Byte
  run       : Bool
  deriving DecidableEq, Repr

/-- What the input strobes do, before any step: `rst` resets; `host_we` and `run` are "honoured in `Ready` only" and
change nothing elsewhere (R172). The result of several at once is not stated: refused (notes/assumptions/13.md). -/
def State.strobe (s : State) (p : InputPorts) : Host.Outcome State Fault Refusal :=
  match p.rst, p.hostWe, p.run with
  | false, false, false => .next s
  | true, false, false => .next (hostReset s)
  | false, true, false => if s.engine = .ready then hostWrite p.hostAddr.toNat p.hostWdata s else .next s
  | false, false, true => if s.engine = .ready then .next (s.setEngine .running) else .next s
  | _, _, _ => .refused .strobesTogether

end Sys2Proof.Machine
end

