-- ==== Sys2Proof/WellFormed.lean ====
section
/-! DEFINITION. What a program must respect (spec/70_reset_and_hazards.md R155), as checks. An instruction that fails
one still encodes, decodes and runs: it then meets the fault R155 names (notes/assumptions/23.md). -/

namespace Sys2Proof

/-- An index byte names a register when it is 0 to 7, all 8 bits compared (R11, R52). -/
def validIndex (i : Byte) : Bool := decide (i.toNat < Config.nregs)

/-- The instruction uses register indices 0 to 7 only (R52, R155); the ones the assembly syntax can spell (R61). -/
def Instr.wellFormed : Instr → Bool
  | .hlt => true
  | .ldi a _ => validIndex a
  | .mul a b => validIndex a && validIndex b
  | .prn a => validIndex a

/-- An instruction can execute at this address: its lookahead window lies in the memory (R37, R71, R155). -/
def placeable (addr : Nat) : Bool := decide (addr + 2 < Config.memSize)

/-- A program image fits the memory (R155, R177). -/
def imageFits (image : List Byte) : Bool := decide (image.length ≤ Config.memSize)

end Sys2Proof
end

