-- ==== Sys2Proof/Machine/Text.lean ====
section
/-! DEFINITION. The texts the spec fixes, as lists of characters: the trace line (spec/80_blocks_and_interfaces.md R181,
R182), the decimal numerals the host shows for PRN (spec/44_prn.md R111), the assembly syntax (spec/30_encoding.md R61). -/

namespace Sys2Proof.Machine

/-- One upper-case hexadecimal digit. -/
def hexDigit (n : Nat) : Char := if n < 10 then Char.ofNat (48 + n) else Char.ofNat (55 + n)

/-- `%02X` of a number below 256: two upper-case hexadecimal digits (R182). -/
def hex2 (n : Nat) : List Char := [hexDigit (n / 16), hexDigit (n % 16)]

/-- Each register value as one space and `%02X` of it, `x[0]` first (R182, decision D23). -/
def traceRegs (x : List RegWord) : List Char := x.flatMap fun v => ' ' :: hex2 v.toNat

/-- Trace (R181, R182): the text line of `pc`, the three bytes in memory there and the eight registers, newline
included; not defined when a lookahead address is out of bounds (decision D15). A function of the state, it changes
nothing. -/
def State.trace (s : State) : Option (List Char) :=
  match s.memRead s.pc.toNat, s.memRead (s.pc.toNat + 1), s.memRead (s.pc.toNat + 2) with
  | .ok b0, .ok b1, .ok b2 =>
    some (['T', 'R', 'A', 'C', 'E', ':', ' '] ++ hex2 s.pc.toNat ++ [' ', '|', ' '] ++ hex2 b0.toNat ++ [' '] ++
      hex2 b1.toNat ++ [' '] ++ hex2 b2.toNat ++ [' ', '|'] ++ traceRegs s.x.toList ++ ['\n'])
  | _, _, _ => none

/-- The decimal numeral of a value (R111). -/
def decimal (n : Nat) : List Char := Nat.toDigits 10 n

/-- What the host shows of the output log: each value's decimal numeral, in order; the separator is not in the source
(R111, R173). -/
def State.shownOutput (s : State) : List (List Char) := s.out.map fun v => decimal v.toNat

/-- The assembly spelling of an instruction (R61). A register above 7 cannot be spelled. -/
def asm (i : Instr) : Option (List Char) :=
  if i.wellFormed then
    match i with
    | .hlt => some ['H', 'L', 'T']
    | .ldi a b => some (['L', 'D', 'I', ' ', 'R'] ++ decimal a.toNat ++ [','] ++ decimal b.toNat)
    | .mul a b => some (['M', 'U', 'L', ' ', 'R'] ++ decimal a.toNat ++ [',', 'R'] ++ decimal b.toNat)
    | .prn a => some (['P', 'R', 'N', ' ', 'R'] ++ decimal a.toNat)
  else none

end Sys2Proof.Machine
end

