-- ==== Sys2Proof/Safety.lean ====
section
/-! DEFINITION. What counts as a state the machine can be in, in the terms the claims use: the invariant of the spec's
own statements about the whole state. -/

namespace Sys2Proof.Machine

/-- The `info` a record of this cause can carry in a state a run or the host reaches (R120). `UnsupportedOperation` is
never recorded: no program can cause it (R105, R123). -/
def FaultRecord.Reportable (r : FaultRecord) : Prop :=
  match r.cause with
  | .outOfBounds => 255 < r.info
  | .invalidRegister => 8 ≤ r.info ∧ r.info ≤ 255
  | .unsupportedOperation => False
  | .unknownInstruction => r.info ≤ 255 ∧ r.info ∉ [0x01, 0x82, 0xA2, 0x47]

/-- The state before any run: all but the memory and the fault record at its reset value (R18, R25). -/
def State.Untouched (s : State) : Prop :=
  s.x = State.reset.x ∧ s.pc = 0 ∧ s.ir = State.reset.ir ∧ s.out = []

/-- The invariant of the machine. -/
structure State.Inv (s : State) : Prop where
  /-- Memory keeps its canonical form: 256 cells and no others (R30). -/
  mem_wf : Memory.wf s.mem
  /-- "The values `pc` can take are 0 to 256" (R16). -/
  pc_le : s.pc.toNat ≤ 256
  /-- "`fault` is not `none` exactly when `state = Faulted`" (R20). -/
  fault_iff : s.fault ≠ none ↔ s.engine = .faulted
  /-- The record says what its cause can report (R120). -/
  reportable : ∀ r, s.fault = some r → r.Reportable
  /-- In `Ready` nothing but memory differs from reset (R18, R175). -/
  ready_untouched : s.engine = .ready → s.Untouched
  /-- A halted engine shows the address after its HLT, which stood at 253 or below (R78, R155). -/
  halted_pc : s.engine = .halted → 1 ≤ s.pc.toNat ∧ s.pc.toNat ≤ 254
  /-- Every emitted value came from a PRN, two bytes wide (R15, R22). -/
  out_le : 2 * s.out.length ≤ s.pc.toNat

end Sys2Proof.Machine
end

