-- ==== Sys2Proof/Certificates/Slice0/Obligations.lean ====
section
/-! DEFINITION. The statements about the machine, for the provers. "R<n>" is a numbered rule of spec/, "D<n>" a decision
of spec/92_eei_decisions.md. -/

open Sys2Proof Sys2Proof.Machine

/-! ## Registers and memory -/

/-- R11: the read `x[i]`, the comparison on all 8 bits of `i`. -/
def Obligations.RegisterReadChecksWholeIndex : Prop :=
  ∀ (s : State) (i : Byte),
    (∀ h : i.toNat < 8, s.readReg i = .ok s.x[i.toNat]) ∧
    (8 ≤ i.toNat → s.readReg i = .error ⟨.invalidRegister, i.toNat⟩)

/-- R12: the write `x[i] <- v` raises for an index above 7; else register `i` becomes `v`, stored as given, every other
register keeps its value, and nothing else changes. -/
def Obligations.RegisterWriteSetsOneRegister : Prop :=
  ∀ (s : State) (i : Byte) (v : RegWord),
    (i.toNat < 8 → ∃ t, s.writeReg i v = .ok t ∧ t.readReg i = .ok v ∧
      (∀ j : Byte, j ≠ i → t.readReg j = s.readReg j) ∧ t = { s with x := t.x }) ∧
    (8 ≤ i.toNat → s.writeReg i v = .error ⟨.invalidRegister, i.toNat⟩)

/-- R32: `MemRead(addr, 1)`. It is a function of the state, so it changes nothing. -/
def Obligations.MemReadFailsExactlyAbove255 : Prop :=
  ∀ (s : State) (addr : Nat),
    (addr ≤ 255 → s.memRead addr = .ok (Memory.get s.mem addr)) ∧
    (255 < addr → s.memRead addr = .error ⟨.outOfBounds, addr⟩)

/-- R33: `MemWrite(addr, 1, v)`: above 255 it raises; else cell `addr` becomes `v`, every other cell keeps its value, and
nothing else changes; no instruction writes memory. The premise is the canonical form of the memory, which every step
and every host operation keeps (`StepKeepsMachineInvariant`, `HostOperationsKeepMachineInvariant`). -/
def Obligations.MemWriteMutatesOneCell : Prop :=
  (∀ (s : State) (addr : Nat) (v : Byte), Memory.wf s.mem →
    (addr ≤ 255 → ∃ t, s.memWrite addr v = .ok t ∧ t.memRead addr = .ok v ∧
      (∀ b, b ≠ addr → t.memRead b = s.memRead b) ∧ t = { s with mem := t.mem } ∧ Memory.wf t.mem) ∧
    (255 < addr → s.memWrite addr v = .error ⟨.outOfBounds, addr⟩)) ∧
  (∀ (i : Instr) (s t : State), exec i s = .next t → t.mem = s.mem)

/-! ## The ALU -/

/-- R100: the ALU's function, by tag: 0 is ADD, 1 is MUL (D17); `REGW` is 8 (D1). -/
def Obligations.AluComputesByTag : Prop :=
  ∀ (op : AluOp) (p q : RegWord),
    (op = 0 → ∃ v, alu op p q = .ok v ∧ v.toNat = (p.toNat + q.toNat) % 256) ∧
    (op = 1 → ∃ v, alu op p q = .ok v ∧ v.toNat = (p.toNat * q.toNat) % 256) ∧
    (op ≠ 0 → op ≠ 1 → alu op p q = .error ⟨.unsupportedOperation, op.toNat⟩)

/-- The arithmetic laws the spec derives for the ALU (43_alu_mul.md section 1, its own inference R107): commutative in
its values, 0 and 1 neutral or absorbing. -/
def Obligations.AluLawsOfZeroOneAndOrder : Prop :=
  ∀ (op : AluOp) (p q : RegWord),
    alu op p q = alu op q p ∧ alu AluOp.mul p 0 = .ok 0 ∧ alu AluOp.add p 0 = .ok p ∧ alu AluOp.mul p 1 = .ok p

/-- R123: the tag that is not ADD or MUL raises, fatally, and no step records that cause: no program can cause it. -/
def Obligations.UnsupportedOperationNeverRaisedByAStep : Prop :=
  (∀ (op : AluOp) (p q : RegWord), op ≠ AluOp.add → op ≠ AluOp.mul →
    alu op p q = .error ⟨.unsupportedOperation, op.toNat⟩) ∧
  (∀ (s : State) (op : AluOp) (a b : Byte), op ≠ AluOp.add → op ≠ AluOp.mul → s.finish (s.aluApply op a b) =
    .next { s with engine := .faulted, fault := some ⟨.unsupportedOperation, op.toNat⟩ }) ∧
  (∀ s t : State, step s = .next t →
    t.fault = s.fault ∨ ∃ r, t.fault = some r ∧ r.cause ≠ .unsupportedOperation)

/-! ## What each instruction does (exec) -/

/-- HLT completes in every state (41_hlt.md): the engine is `Halted`, `pc` is one further, nothing else changes. -/
def Obligations.HltCompletes : Prop :=
  ∀ s : State, exec .hlt s = .next { s with engine := .halted, pc := s.pc + 1 }

/-- R96: for a valid index LDI completes, and a register read of it then yields exactly the byte; nothing else but `pc`
changes. -/
def Obligations.LdiThenReadYieldsTheByte : Prop :=
  ∀ (s : State) (i v : Byte) (h : i.toNat < 8), ∃ t, exec (.ldi i v) s = .next t ∧
    t.readReg i = .ok v ∧ t = { s with x := s.x.set i.toNat v, pc := s.pc + 3 }

/-- R104: for valid indices MUL completes and sets register `a` to the product modulo 256; 200 by 200 gives 64, and 144
is the ADD result. -/
def Obligations.MulSetsTheWrappedProduct : Prop :=
  (∀ (s : State) (a b : Byte) (ha : a.toNat < 8) (hb : b.toNat < 8), ∃ v : RegWord,
    v.toNat = (s.x[a.toNat].toNat * s.x[b.toNat].toNat) % 256 ∧
    exec (.mul a b) s = .next { s with x := s.x.set a.toNat v, pc := s.pc + 3 }) ∧
  alu AluOp.mul 200 200 = .ok 64 ∧ alu AluOp.add 200 200 = .ok 144

/-- PRN completes for a valid index (44_prn.md): the register's value is appended to the output log, `pc` is two
further, nothing else changes. -/
def Obligations.PrnCompletes : Prop :=
  ∀ (s : State) (a : Byte) (h : a.toNat < 8),
    exec (.prn a) s = .next { s with out := s.out ++ [s.x[a.toNat]], pc := s.pc + 2 }

/-- The frame of the register-writing instructions LDI and MUL, which store nothing: no other register, no byte of
memory, no output, not the latch; engine and fault record change only where an index is invalid, and then no register and
not `pc`. Taking the fault as the state `Faulted` is the spec's decision D6. -/
def Obligations.RegisterWritersFrame : Prop :=
  ∀ (s t : State) (i : Instr) (a b : Byte), (i = .ldi a b ∨ i = .mul a b) → exec i s = .next t →
    (∀ j : Fin 8, j.val ≠ a.toNat → t.x[j] = s.x[j]) ∧
    (∀ addr, t.memRead addr = s.memRead addr) ∧ t.mem = s.mem ∧ t.out = s.out ∧ t.ir = s.ir ∧
    (i.wellFormed = true → t.engine = s.engine ∧ t.fault = s.fault) ∧
    (i.wellFormed = false → t.x = s.x ∧ t.pc = s.pc ∧ t.engine = .faulted ∧
      ∃ k, t.fault = some ⟨.invalidRegister, k⟩)

/-- The frame of HLT and PRN, which write no register and store nothing: PRN alone changes the output log and HLT alone
the engine, except that a PRN of an invalid index faults and changes engine and record only (D6). -/
def Obligations.HltAndPrnFrame : Prop :=
  ∀ (s t : State) (i : Instr) (a : Byte), (i = .hlt ∨ i = .prn a) → exec i s = .next t →
    t.x = s.x ∧ (∀ addr, t.memRead addr = s.memRead addr) ∧ t.mem = s.mem ∧ t.ir = s.ir ∧
    (i = .hlt → t.out = s.out ∧ t.fault = s.fault) ∧
    (i = .prn a → i.wellFormed = true → t.engine = s.engine ∧ t.fault = s.fault) ∧
    (i = .prn a → i.wellFormed = false → t.out = s.out ∧ t.pc = s.pc ∧ t.engine = .faulted ∧
      t.fault = some ⟨.invalidRegister, a.toNat⟩)

/-- R156: each handler's advance equals the width of its row of the opcode map. -/
def Obligations.HandlerAdvanceIsRowWidth : Prop :=
  ∀ (i : Instr) (s t : State), exec i s = .next t → t.engine ≠ .faulted →
    ∃ w op rest, encode i = op :: rest ∧ widthOfOpcode op = some w ∧ t.pc = s.pc + BitVec.ofNat 9 w

/-! ## The step -/

/-- The step is total while the engine runs and does not exist otherwise (40_fetch_decode_dispatch.md section 1; that
the model answers a refusal there is log 5). -/
def Obligations.StepExistsExactlyWhileRunning : Prop :=
  ∀ s : State,
    (s.engine = .running → ∃ t, step s = .next t) ∧
    (s.engine ≠ .running → step s = .refused (.notRunning s.engine))

/-- The bytes at `pc`, `pc+1`, `pc+2` decode to `i`: the step latches them and is `exec i` (40_fetch_decode_dispatch.md
section 1). -/
def Obligations.StepRunsTheDecodedInstruction : Prop :=
  ∀ (s : State) (op a b : Byte) (i : Instr), s.engine = .running →
    s.memRead s.pc.toNat = .ok op → s.memRead (s.pc.toNat + 1) = .ok a → s.memRead (s.pc.toNat + 2) = .ok b →
    decode op a b = .ok i → step s = exec i { s with ir := ⟨op, a, b⟩ }

/-- The fetch reads three bytes whatever the opcode (40_fetch_decode_dispatch.md section 2, decision D5): it succeeds up
to `pc` 253, and at 254, 255 and 256 the step faults with address 256, latch and `pc` unchanged. -/
def Obligations.FetchWindowMustLieInMemory : Prop :=
  ∀ s : State,
    (s.pc.toNat ≤ 253 → ∃ op a b, s.memRead s.pc.toNat = .ok op ∧ s.memRead (s.pc.toNat + 1) = .ok a ∧
      s.memRead (s.pc.toNat + 2) = .ok b ∧ s.fetch = .ok ⟨op, a, b⟩) ∧
    (254 ≤ s.pc.toNat → s.pc.toNat ≤ 256 → s.fetch = .error ⟨.outOfBounds, 256⟩ ∧
      (s.engine = .running → step s = .next { s with engine := .faulted, fault := some ⟨.outOfBounds, 256⟩ }))

/-- R58: every opcode byte outside the four is illegal, 252 values: decode rejects it, and a step that fetches it
changes nothing but engine, record and latch and leaves a non-zero exit status. -/
def Obligations.IllegalOpcodeRaisesUnknownInstruction : Prop :=
  (List.range 256).countP (fun n => (lookupOpcode (BitVec.ofNat 8 n)).isNone) = 252 ∧
  ∀ op : Byte, op ≠ 0x01 → op ≠ 0x82 → op ≠ 0xA2 → op ≠ 0x47 →
    (∀ a b, decode op a b = .error (.unknownInstruction op)) ∧
    (∀ s : State, s.engine = .running → s.pc.toNat ≤ 253 → s.memRead s.pc.toNat = .ok op →
      ∃ t, step s = .next t ∧ t.engine = .faulted ∧ t.fault = some ⟨.unknownInstruction, op.toNat⟩ ∧
        t.mem = s.mem ∧ t.x = s.x ∧ t.pc = s.pc ∧ t.out = s.out ∧ ∃ n, t.exitStatus = some n ∧ n ≠ 0)

/-- R90: HLT as a whole step. -/
def Obligations.HltStep : Prop :=
  encode .hlt = [0x01] ∧
  ∀ (s : State) (b1 b2 : Byte), s.engine = .running →
    (s.memRead s.pc.toNat = .ok 0x01 → s.memRead (s.pc.toNat + 1) = .ok b1 → s.memRead (s.pc.toNat + 2) = .ok b2 →
      step s = .next { s with ir := ⟨0x01, b1, b2⟩, engine := .halted, pc := s.pc + 1 }) ∧
    (254 ≤ s.pc.toNat → s.pc.toNat ≤ 256 →
      step s = .next { s with engine := .faulted, fault := some ⟨.outOfBounds, 256⟩ })

/-- R95: LDI as a whole step. -/
def Obligations.LdiStep : Prop :=
  ∀ a b : Byte, encode (.ldi a b) = [0x82, a, b] ∧
  ∀ s : State, s.engine = .running →
    (s.memRead s.pc.toNat = .ok 0x82 → s.memRead (s.pc.toNat + 1) = .ok a → s.memRead (s.pc.toNat + 2) = .ok b →
      (∀ h : a.toNat < 8, step s = .next { s with ir := ⟨0x82, a, b⟩, x := s.x.set a.toNat b, pc := s.pc + 3 }) ∧
      (8 ≤ a.toNat → step s =
        .next { s with ir := ⟨0x82, a, b⟩, engine := .faulted, fault := some ⟨.invalidRegister, a.toNat⟩ })) ∧
    (254 ≤ s.pc.toNat → s.pc.toNat ≤ 256 →
      step s = .next { s with engine := .faulted, fault := some ⟨.outOfBounds, 256⟩ })

/-- R103: MUL as a whole step; `REGW` is 8 (D1). -/
def Obligations.MulStep : Prop :=
  ∀ a b : Byte, encode (.mul a b) = [0xA2, a, b] ∧
  ∀ s : State, s.engine = .running →
    (s.memRead s.pc.toNat = .ok 0xA2 → s.memRead (s.pc.toNat + 1) = .ok a → s.memRead (s.pc.toNat + 2) = .ok b →
      (∀ (ha : a.toNat < 8) (hb : b.toNat < 8), ∃ v : RegWord,
        v.toNat = (s.x[a.toNat].toNat * s.x[b.toNat].toNat) % 2 ^ 8 ∧
        step s = .next { s with ir := ⟨0xA2, a, b⟩, x := s.x.set a.toNat v, pc := s.pc + 3 }) ∧
      (8 ≤ a.toNat → step s =
        .next { s with ir := ⟨0xA2, a, b⟩, engine := .faulted, fault := some ⟨.invalidRegister, a.toNat⟩ }) ∧
      (a.toNat < 8 → 8 ≤ b.toNat → step s =
        .next { s with ir := ⟨0xA2, a, b⟩, engine := .faulted, fault := some ⟨.invalidRegister, b.toNat⟩ })) ∧
    (254 ≤ s.pc.toNat → s.pc.toNat ≤ 256 →
      step s = .next { s with engine := .faulted, fault := some ⟨.outOfBounds, 256⟩ })

/-- R110: PRN as a whole step. -/
def Obligations.PrnStep : Prop :=
  ∀ a : Byte, encode (.prn a) = [0x47, a] ∧
  ∀ (s : State) (b : Byte), s.engine = .running →
    (s.memRead s.pc.toNat = .ok 0x47 → s.memRead (s.pc.toNat + 1) = .ok a → s.memRead (s.pc.toNat + 2) = .ok b →
      (∀ h : a.toNat < 8, step s =
        .next { s with ir := ⟨0x47, a, b⟩, out := s.out ++ [s.x[a.toNat]], pc := s.pc + 2 }) ∧
      (8 ≤ a.toNat → step s =
        .next { s with ir := ⟨0x47, a, b⟩, engine := .faulted, fault := some ⟨.invalidRegister, a.toNat⟩ })) ∧
    (254 ≤ s.pc.toNat → s.pc.toNat ≤ 256 →
      step s = .next { s with engine := .faulted, fault := some ⟨.outOfBounds, 256⟩ })

/-- R76, R91, R59: the bytes beyond an instruction's own width never matter: two running states that differ only in
memory, and agree on the bytes of the instruction at `pc`, take the same step but for the memory they keep and the latch. -/
def Obligations.BytesBeyondTheWidthNeverMatter : Prop :=
  ∀ (s u t : State) (op : Byte) (w : Nat), s.engine = .running → u = { s with mem := u.mem } → s.pc.toNat ≤ 253 →
    s.memRead s.pc.toNat = .ok op → widthOfOpcode op = some w →
    (∀ k < w, u.memRead (s.pc.toNat + k) = s.memRead (s.pc.toNat + k)) → step s = .next t →
    ∃ t', step u = .next t' ∧ t' = { t with mem := u.mem, ir := t'.ir }

/-- The step moves `pc` by the width of the instruction it ran, as a natural number: 1, 2 or 3, never wrapping
(10_state.md section 3, decision D4). -/
def Obligations.StepAdvancesPcByWidthUnlessItFaults : Prop :=
  ∀ s t : State, step s = .next t →
    (t.engine = .faulted → t.pc = s.pc) ∧
    (t.engine ≠ .faulted → ∃ op w, s.memRead s.pc.toNat = .ok op ∧ widthOfOpcode op = some w ∧
      1 ≤ w ∧ w ≤ 3 ∧ t.pc.toNat = s.pc.toNat + w ∧ t.pc.toNat ≤ 256)

/-- Over any step (10_state.md section 2, 20_memory.md sections 1 and 3, 44_prn.md): memory is never written, the output
log grows only by a PRN and by the value of its register, a register changes only as the first operand of an LDI or MUL. -/
def Obligations.OnlyTheNamedInstructionChangesEachPart : Prop :=
  ∀ s t : State, step s = .next t →
    t.mem = s.mem ∧
    (t.out = s.out ∨ ∃ a v, s.memRead s.pc.toNat = .ok 0x47 ∧ s.memRead (s.pc.toNat + 1) = .ok a ∧
      s.readReg a = .ok v ∧ t.out = s.out ++ [v]) ∧
    (∀ j : Fin 8, t.x[j] ≠ s.x[j] → ∃ op a, s.memRead s.pc.toNat = .ok op ∧ (op = 0x82 ∨ op = 0xA2) ∧
      s.memRead (s.pc.toNat + 1) = .ok a ∧ a.toNat = j.val)

/-- The engine's transitions in a step (10_state.md section 5): only from `Running`, never to `Ready`, and to `Halted`
exactly by an HLT whose lookahead window lies in the memory. `Faulted` is the spec's decision D6. -/
def Obligations.EngineHaltsExactlyByHlt : Prop :=
  ∀ s t : State, step s = .next t →
    s.engine = .running ∧ t.engine ≠ .ready ∧
    (t.engine = .halted ↔ s.pc.toNat ≤ 253 ∧ s.memRead s.pc.toNat = .ok 0x01) ∧
    (t.engine = .running → t.fault = s.fault) ∧ (t.engine = .halted → t.fault = s.fault)

/-! ## Faults and the end of a run -/

/-- After HLT no step exists, `pc` stays one after it, the exit status is 0 (41_hlt.md, 10_state.md section 5). That the
model's `step` answers the refusal `notRunning` where no step exists is the model's choice, log 5. -/
def Obligations.AfterHltNoStepExists : Prop :=
  ∀ s t : State, exec .hlt s = .next t →
    step t = .refused (.notRunning .halted) ∧ t.pc = s.pc + 1 ∧ t.exitStatus = some 0

/-- R21: the exit status by engine state; after a fault a claim may assume only that it is not 0 (D9). -/
def Obligations.ExitStatusByEngineState : Prop :=
  ∀ s : State,
    (s.engine = .halted → s.exitStatus = some 0) ∧
    (s.engine = .faulted → ∃ n, s.exitStatus = some n ∧ n ≠ 0) ∧
    (s.engine = .ready ∨ s.engine = .running → s.exitStatus = none)

/-- Faults are precise and terminal (60_exceptions.md sections 2 and 4, decision D6): the faulting step changes only
engine, record and, after a complete fetch, the latch; no step follows. That the model's `step` answers the refusal
`notRunning` where no step exists is the model's choice, log 5. -/
def Obligations.FaultingStepChangesNothingElse : Prop :=
  ∀ s t : State, step s = .next t → t.engine = .faulted →
    (∃ r, t = { s with engine := .faulted, fault := some r, ir := t.ir }) ∧
    (t.ir = s.ir ∨ s.fetch = .ok t.ir) ∧ step t = .refused (.notRunning .faulted)

/-- The priority of faults (60_exceptions.md section 3, decision D8): fetch, unknown opcode, ALU tag, `operand_a`,
`operand_b`. -/
def Obligations.FirstFaultInPriorityOrderIsReported : Prop :=
  (∀ s : State, s.engine = .running → 254 ≤ s.pc.toNat → s.pc.toNat ≤ 256 →
    ∃ t, step s = .next t ∧ t.fault = some ⟨.outOfBounds, 256⟩) ∧
  (∀ (s : State) (op : Byte), s.engine = .running → s.pc.toNat ≤ 253 → s.memRead s.pc.toNat = .ok op →
    widthOfOpcode op = none → ∃ t, step s = .next t ∧ t.fault = some ⟨.unknownInstruction, op.toNat⟩) ∧
  (∀ (s : State) (op : AluOp) (a b : Byte), op ≠ AluOp.add → op ≠ AluOp.mul →
    s.aluApply op a b = .error ⟨.unsupportedOperation, op.toNat⟩) ∧
  (∀ (s : State) (a b : Byte), 8 ≤ a.toNat → ∃ t, exec (.mul a b) s = .next t ∧
    t.fault = some ⟨.invalidRegister, a.toNat⟩) ∧
  (∀ (s : State) (a b : Byte), a.toNat < 8 → 8 ≤ b.toNat → ∃ t, exec (.mul a b) s = .next t ∧
    t.fault = some ⟨.invalidRegister, b.toNat⟩)

/-- Every run ends (40_fetch_decode_dispatch.md section 4; the bound is the spec's own inference): a running engine is
terminal within half the bytes left, rounded up, and one step more: 128 steps from address 0. -/
def Obligations.EveryRunEndsWithinItsBound : Prop :=
  ∀ s : State, s.engine = .running →
    ∃ n t, n ≤ (255 - s.pc.toNat) / 2 + 1 ∧ n ≤ 128 ∧ Host.Core.run Sys2Proof.core n s = .next t ∧ t.terminal = true

/-! ## Reset and the host -/

/-- The table of reset values (10_state.md section 8): memory, `pc` and `Ready` are the source's; the zeros of the
registers, the empty record, latch and log are the spec's own choices D3, D6, D14, D16, and that reset also clears a
loaded memory is its decision D19 (logs 3, 20, 25). -/
def Obligations.ResetGivesTheTableOfResetValues : Prop :=
  ∀ s : State,
    (∀ a ≤ 255, (hostReset s).memRead a = .ok 0x00) ∧ (hostReset s).pc = 0 ∧ (hostReset s).engine = .ready ∧
    (∀ i : Fin 8, (hostReset s).x[i] = 0) ∧ (hostReset s).fault = none ∧ (hostReset s).ir = ⟨0x00, 0x00, 0x00⟩ ∧
    (hostReset s).out = [] ∧ hostReset s = Sys2Proof.core.reset

/-- The machine right after reset meets the invariant. -/
def Obligations.ResetMeetsMachineInvariant : Prop := State.reset.Inv

/-- Every step keeps the invariant: canonical memory, `pc` in 0 to 256, a record exactly in `Faulted` and one that its
cause can report, no `UnsupportedOperation`, a halted `pc` of 1 to 254, and at most one output per two bytes run
(10_state.md sections 3, 5 and 7, 60_exceptions.md section 1). -/
def Obligations.StepKeepsMachineInvariant : Prop :=
  ∀ s t : State, s.Inv → step s = .next t → t.Inv

/-- Every host operation keeps the invariant (80_blocks_and_interfaces.md section 3). -/
def Obligations.HostOperationsKeepMachineInvariant : Prop :=
  ∀ s : State, s.Inv →
    (hostReset s).Inv ∧
    (∀ addr v t, hostWrite addr v s = .next t → t.Inv) ∧
    (∀ image t, hostLoad image s = .next t → t.Inv) ∧
    (∀ t, hostRun s = .next t → t.Inv)

/-- R176: HostWrite in `Ready` is one `MemWrite`; out of bounds the engine is `Faulted` with that record; nothing but the
one cell is touched. The premise is the canonical form of the memory, which every operation keeps. -/
def Obligations.HostWriteTouchesOneCell : Prop :=
  ∀ (s : State) (addr : Nat) (v : Byte), s.engine = .ready → Memory.wf s.mem →
    (addr ≤ 255 → ∃ t, hostWrite addr v s = .next t ∧ t.memRead addr = .ok v ∧
      (∀ b, b ≠ addr → t.memRead b = s.memRead b) ∧ t = { s with mem := t.mem }) ∧
    (255 < addr → hostWrite addr v s =
      .next { s with engine := .faulted, fault := some ⟨.outOfBounds, addr⟩ })

/-- Load (80_blocks_and_interfaces.md section 3; the over-long image is decision D12): the image stands from address 0 on,
every other cell keeps its value; longer than 256 bytes, the first 256 are written and the engine is `Faulted`. -/
def Obligations.LoadCopiesTheImageFromAddressZero : Prop :=
  ∀ (s : State) (image : List Byte), s.engine = .ready → Memory.wf s.mem →
    (image.length ≤ 256 → ∃ t, hostLoad image s = .next t ∧ t = { s with mem := t.mem } ∧
      (∀ k, ∀ h : k < image.length, t.memRead k = .ok image[k]) ∧
      (∀ k, image.length ≤ k → t.memRead k = s.memRead k)) ∧
    (256 < image.length → ∃ t, hostLoad image s = .next t ∧
      t = { s with mem := t.mem, engine := .faulted, fault := some ⟨.outOfBounds, 256⟩ } ∧
      (∀ k, ∀ h : k < image.length, k ≤ 255 → t.memRead k = .ok image[k]))

/-- Run from any `Ready` state ends in a terminal state, with memory as loaded and an exit status
(40_fetch_decode_dispatch.md section 4, 80_blocks_and_interfaces.md section 3). That the model's loop has fuel for 128
steps is the model's choice, log 16; this statement says that it is never what ends a run. -/
def Obligations.RunAlwaysEndsTerminal : Prop :=
  ∀ s : State, s.engine = .ready → ∃ t, hostRun s = .next t ∧ t.terminal = true ∧ t.mem = s.mem ∧
    (∃ n, t.exitStatus = some n) ∧ (t.engine = .halted → t.fault = s.fault) ∧ (t.engine = .faulted → t.fault ≠ none)

/-- Run with nothing loaded (70_reset_and_hazards.md section 2, decision D24; the loop's fuel is the model's, log 16). -/
def Obligations.RunWithNothingLoadedFaultsAtZero : Prop :=
  hostRun State.reset = .next { State.reset with engine := .faulted, fault := some ⟨.unknownInstruction, 0x00⟩ }

/-- HostWrite, Load and Run outside `Ready` are refused, Reset never is (80_blocks_and_interfaces.md section 3, decisions
D11 and D13). -/
def Obligations.HostOperationsRefusedOutsideReady : Prop :=
  ∀ s : State, s.engine ≠ .ready →
    (∀ addr v, hostWrite addr v s = .refused (.hostNotReady s.engine)) ∧
    (∀ image, hostLoad image s = .refused (.hostNotReady s.engine)) ∧
    hostRun s = .refused (.hostNotReady s.engine) ∧ (hostReset s).engine = .ready

/-- The trace line (80_blocks_and_interfaces.md section 4, decisions D15 and D23): defined exactly up to `pc` 253, 46
characters and a newline, and it shows `pc`, the three bytes and all eight registers: equal lines mean equal ones. -/
def Obligations.TraceLineShowsPcBytesAndRegisters : Prop :=
  (∀ s : State, 253 < s.pc.toNat → s.trace = none) ∧
  (∀ s : State, s.pc.toNat ≤ 253 → ∃ line, s.trace = some (line ++ ['\n']) ∧ line.length = 46 ∧
    line.take 7 = ['T', 'R', 'A', 'C', 'E', ':', ' ']) ∧
  (∀ s u : State, s.pc.toNat ≤ 253 → s.trace = u.trace → s.pc = u.pc ∧ s.fetch = u.fetch ∧ s.x = u.x)

/-- The status ports (80_blocks_and_interfaces.md section 2; their codes are the spec's own choices D7 and D21). -/
def Obligations.StatusPortsCarryEngineAndFault : Prop :=
  ∀ s : State,
    (s.statePort = 0 ↔ s.engine = .ready) ∧ (s.statePort = 1 ↔ s.engine = .running) ∧
    (s.statePort = 2 ↔ s.engine = .halted) ∧ (s.statePort = 3 ↔ s.engine = .faulted) ∧
    (s.faultCausePort = 0 ↔ s.fault = none) ∧
    (s.fault = none → s.faultInfoPort = 0) ∧
    (∀ r, s.fault = some r → r.info < 512 → s.faultInfoPort.toNat = r.info)

/-! ## Encoding -/

/-- An encoding decodes to its instruction whatever follows it, and the three fetched bytes decode to an instruction
exactly when its encoding is what they begin with (30_encoding.md sections 1 to 4). -/
def Obligations.DecodeAndEncodeAgree : Prop :=
  (∀ (i : Instr) (rest : List Byte), decodeBytes (encode i ++ rest) = .ok (i, rest)) ∧
  (∀ (i : Instr) (op a b : Byte), decode op a b = .ok i ↔ encode i <+: [op, a, b])

/-- Instruction boundaries are found by adding widths (30_encoding.md section 5, the spec's own inference): reading an
assembled straight line gives back its instructions, every operand at every value, and bytes that read as a straight line
are exactly its assembly. -/
def Obligations.DisassembleInvertsAssemble : Prop :=
  ∀ (is : List Instr) (bytes : List Byte), disassemble bytes = .ok is ↔ bytes = assemble is

/-- The bytes of rows of the opcode map, written out, decode to their instructions (30_encoding.md section 4). The spec
gives bytes and no such word: packing byte 0 into bits 7 to 0, the next byte above it, and reading every bit from `nbits`
on as 0 is the model's choice, log 24. -/
def Obligations.WrittenOutWordsDecode : Prop :=
  decodeTableWord 8 0b00000001 = some .hlt ∧
  decodeTableWord 24 0b00001000_00000000_10000010 = some (.ldi 0 8) ∧
  decodeTableWord 24 0b00000001_00000000_10100010 = some (.mul 0 1) ∧
  decodeTableWord 16 0b00000111_01000111 = some (.prn 7) ∧
  decodeTableWord 8 0b10100000 = none ∧ decodeTableWord 8 0b00000000 = none

/-- An instruction placed where the step fetches is the one the very next step runs, in every state with a canonical
memory. Placing stands for the host's Load and Run and is the model's choice, log 7; so is the packing of the bytes into
the word, log 24. -/
def Obligations.PlacedInstructionIsRunNext : Prop :=
  ∀ (s : State) (nbits w : Nat) (i : Instr), Memory.wf s.mem → decodeTableWord nbits w = some i →
    step (s.withFetchWord nbits w) =
      exec i { s.withFetchWord nbits w with ir := ⟨tableByte nbits w 0, tableByte nbits w 1, tableByte nbits w 2⟩ }
end

