-- ==== Sys2Proof/Laws/Decode.lean ====
section
/-! SUPPORT. Laws of the opcode map, decode and encode. -/

namespace Sys2Proof

theorem lookupOpcode_hlt : lookupOpcode 0x01 = some ⟨.hlt, 0xFF, 0x01, .op⟩ := by decide
theorem lookupOpcode_ldi : lookupOpcode 0x82 = some ⟨.ldi, 0xFF, 0x82, .opAB⟩ := by decide
theorem lookupOpcode_mul : lookupOpcode 0xA2 = some ⟨.mul, 0xFF, 0xA2, .opAB⟩ := by decide
theorem lookupOpcode_prn : lookupOpcode 0x47 = some ⟨.prn, 0xFF, 0x47, .opA⟩ := by decide

/-- No two rows of the map accept one byte. -/
theorem dispatchTable_disjoint : dispatchTable.Pairwise fun r r' => r.pattern ≠ r'.pattern := by decide

/-- The four opcode bytes, and absent for every other one. -/
theorem lookupOpcode_cases (op : Byte) :
    (op = 0x01 ∧ lookupOpcode op = some ⟨.hlt, 0xFF, 0x01, .op⟩) ∨
    (op = 0x82 ∧ lookupOpcode op = some ⟨.ldi, 0xFF, 0x82, .opAB⟩) ∨
    (op = 0xA2 ∧ lookupOpcode op = some ⟨.mul, 0xFF, 0xA2, .opAB⟩) ∨
    (op = 0x47 ∧ lookupOpcode op = some ⟨.prn, 0xFF, 0x47, .opA⟩) ∨
    (op ≠ 0x01 ∧ op ≠ 0x82 ∧ op ≠ 0xA2 ∧ op ≠ 0x47 ∧ lookupOpcode op = none) := by
  by_cases h1 : op = 0x01
  · exact .inl ⟨h1, h1 ▸ lookupOpcode_hlt⟩
  by_cases h2 : op = 0x82
  · exact .inr (.inl ⟨h2, h2 ▸ lookupOpcode_ldi⟩)
  by_cases h3 : op = 0xA2
  · exact .inr (.inr (.inl ⟨h3, h3 ▸ lookupOpcode_mul⟩))
  by_cases h4 : op = 0x47
  · exact .inr (.inr (.inr (.inl ⟨h4, h4 ▸ lookupOpcode_prn⟩)))
  refine .inr (.inr (.inr (.inr ⟨h1, h2, h3, h4, ?_⟩)))
  have key : op &&& 0xFF = op := BitVec.and_allOnes
  simp only [lookupOpcode, dispatchTable, List.find?_cons, OpcodeRow.accepts, key]
  rw [beq_eq_false_iff_ne.2 h1, beq_eq_false_iff_ne.2 h2, beq_eq_false_iff_ne.2 h3, beq_eq_false_iff_ne.2 h4]
  rfl

theorem decode_hlt (a b : Byte) : decode 0x01 a b = .ok .hlt := by rw [decode, lookupOpcode_hlt]; rfl
theorem decode_ldi (a b : Byte) : decode 0x82 a b = .ok (.ldi a b) := by rw [decode, lookupOpcode_ldi]; rfl
theorem decode_mul (a b : Byte) : decode 0xA2 a b = .ok (.mul a b) := by rw [decode, lookupOpcode_mul]; rfl
theorem decode_prn (a b : Byte) : decode 0x47 a b = .ok (.prn a) := by rw [decode, lookupOpcode_prn]; rfl

/-- Everything decode can answer. -/
theorem decode_cases (op a b : Byte) :
    (op = 0x01 ∧ decode op a b = .ok .hlt) ∨ (op = 0x82 ∧ decode op a b = .ok (.ldi a b)) ∨
    (op = 0xA2 ∧ decode op a b = .ok (.mul a b)) ∨ (op = 0x47 ∧ decode op a b = .ok (.prn a)) ∨
    (op ≠ 0x01 ∧ op ≠ 0x82 ∧ op ≠ 0xA2 ∧ op ≠ 0x47 ∧ decode op a b = .error (.unknownInstruction op)) := by
  rcases lookupOpcode_cases op with ⟨h, -⟩ | ⟨h, -⟩ | ⟨h, -⟩ | ⟨h, -⟩ | ⟨h1, h2, h3, h4, h⟩
  · exact .inl ⟨h, h ▸ decode_hlt a b⟩
  · exact .inr (.inl ⟨h, h ▸ decode_ldi a b⟩)
  · exact .inr (.inr (.inl ⟨h, h ▸ decode_mul a b⟩))
  · exact .inr (.inr (.inr (.inl ⟨h, h ▸ decode_prn a b⟩)))
  · exact .inr (.inr (.inr (.inr ⟨h1, h2, h3, h4, by simp [decode, h]⟩)))

/-- An encoding begins with its opcode byte. -/
theorem encode_ne_nil (i : Instr) : encode i ≠ [] := by cases i <;> simp [encode]

end Sys2Proof
end

