-- ==== Sys2Proof/Laws/Memory.lean ====
section
/-! SUPPORT. The laws of memory as a canonical list of cells: a read after a write, the canonical form kept, and equal
reads meaning equal memories. -/

namespace Sys2Proof.Machine.Memory

@[simp] theorem get_nil (a : Nat) : get [] a = resetByte := rfl

theorem get_cons (k : Nat) (w : Byte) (m : List Host.Cell) (a : Nat) :
    get ((k, w) :: m) a = if k = a then w else get m a := rfl

/-- Below every listed address a memory reads as after reset. -/
theorem get_eq_reset_of_lt {m : List Host.Cell} {a : Nat} (h : ∀ c ∈ m, a < c.1) : get m a = resetByte := by
  induction m with
  | nil => rfl
  | cons c m ih =>
    obtain ⟨k, w⟩ := c
    have hk : a < k := h (k, w) (by simp)
    rw [get_cons, if_neg (by omega), ih fun c hc => h c (by simp [hc])]

/-- `cons` puts one cell in front of cells at higher addresses. -/
theorem get_consCell {m : List Host.Cell} {a : Nat} (v : Byte) (h : ∀ c ∈ m, a < c.1) (b : Nat) :
    get (cons a v m) b = if a = b then v else get m b := by
  unfold cons
  split
  · next hv =>
    split
    · next hab => subst hab; rw [get_eq_reset_of_lt h, hv]
    · rfl
  · rfl

theorem wf_cons_iff (k : Nat) (w : Byte) (m : List Host.Cell) :
    wf ((k, w) :: m) ↔ (∀ c ∈ m, k < c.1) ∧ k < 256 ∧ w ≠ resetByte ∧ wf m := by
  simp only [wf, List.pairwise_cons, List.mem_cons, forall_eq_or_imp]
  tauto

theorem wf_nil : wf [] := by simp [wf]

theorem consCell_wf {m : List Host.Cell} {a : Nat} (v : Byte) (ha : a < 256) (h : ∀ c ∈ m, a < c.1) (hm : wf m) :
    wf (cons a v m) := by
  unfold cons
  split
  · exact hm
  · next hv => exact (wf_cons_iff a v m).2 ⟨h, ha, hv, hm⟩

/-- A read after a write: the written cell holds the written byte, every other cell what it held. -/
theorem get_set {m : List Host.Cell} (hm : wf m) (a : Nat) (v : Byte) (b : Nat) :
    get (set m a v) b = if a = b then v else get m b := by
  induction m with
  | nil => exact get_consCell v (by simp) b
  | cons c m ih =>
    obtain ⟨k, w⟩ := c
    obtain ⟨hlt, -, -, hm'⟩ := (wf_cons_iff k w m).1 hm
    unfold set
    split
    · next hak =>
      refine get_consCell v ?_ b
      simp only [List.mem_cons, forall_eq_or_imp]
      exact ⟨hak, fun c hc => hak.trans (hlt c hc)⟩
    · split
      · next hak =>
        subst hak
        rw [get_consCell v hlt, get_cons]
        split <;> rfl
      · next hka hne =>
        rw [get_cons, get_cons, ih hm']
        by_cases hkb : k = b
        · subst hkb; simp [hne]
        · simp [hkb]

/-- Every listed address after a write is the written one or was listed before. -/
theorem mem_set {m : List Host.Cell} {a : Nat} {v : Byte} {c : Host.Cell} (hc : c ∈ set m a v) : c.1 = a ∨ c ∈ m := by
  induction m with
  | nil =>
    simp only [set, cons] at hc
    split at hc <;> simp_all
  | cons d m ih =>
    simp only [set, cons] at hc
    split at hc
    · split at hc <;> simp_all
      rcases hc with rfl | h
      · simp
      · exact .inr h
    · split at hc
      · split at hc <;> simp_all
        rcases hc with rfl | h
        · simp
        · exact .inr (.inr h)
      · rcases List.mem_cons.1 hc with rfl | h
        · simp
        · rcases ih h with h | h
          · exact .inl h
          · simp [h]

/-- A write keeps the canonical form. -/
theorem set_wf {m : List Host.Cell} (hm : wf m) {a : Nat} (ha : a < 256) (v : Byte) : wf (set m a v) := by
  induction m with
  | nil => exact consCell_wf v ha (by simp) wf_nil
  | cons c m ih =>
    obtain ⟨k, w⟩ := c
    obtain ⟨hlt, hk, hw, hm'⟩ := (wf_cons_iff k w m).1 hm
    unfold set
    split
    · next hak =>
      refine consCell_wf v ha ?_ hm
      simp only [List.mem_cons, forall_eq_or_imp]
      exact ⟨hak, fun c hc => hak.trans (hlt c hc)⟩
    · split
      · next hak => subst hak; exact consCell_wf v ha hlt hm'
      · next hka hne =>
        refine (wf_cons_iff _ _ _).2 ⟨fun c hc => ?_, hk, hw, ih hm'⟩
        rcases mem_set hc with h | h
        · omega
        · exact hlt c h

/-- Equal memories are equal data: two canonical lists with the same reads are the same list. -/
theorem eq_of_get_eq {m n : List Host.Cell} (hm : wf m) (hn : wf n) (h : ∀ a, get m a = get n a) : m = n := by
  induction m generalizing n with
  | nil =>
    cases n with
    | nil => rfl
    | cons d n =>
      obtain ⟨k, w⟩ := d
      have hw := ((wf_cons_iff k w n).1 hn).2.2.1
      exact absurd (by simpa [get_cons] using (h k).symm) hw
  | cons c m ih =>
    obtain ⟨k, w⟩ := c
    obtain ⟨hlt, -, hw, hm'⟩ := (wf_cons_iff k w m).1 hm
    cases n with
    | nil => exact absurd (by simpa [get_cons] using h k) hw
    | cons d n =>
      obtain ⟨k', w'⟩ := d
      obtain ⟨hlt', -, hw', hn'⟩ := (wf_cons_iff k' w' n).1 hn
      have hkk : k = k' := by
        rcases Nat.lt_trichotomy k k' with hl | he | hg
        · have hr : get ((k', w') :: n) k = resetByte := get_eq_reset_of_lt (by
            simp only [List.mem_cons, forall_eq_or_imp]
            exact ⟨hl, fun c hc => hl.trans (hlt' c hc)⟩)
          exact absurd (by have := h k; rwa [hr, get_cons, if_pos rfl] at this) hw
        · exact he
        · have hr : get ((k, w) :: m) k' = resetByte := get_eq_reset_of_lt (by
            simp only [List.mem_cons, forall_eq_or_imp]
            exact ⟨hg, fun c hc => hg.trans (hlt c hc)⟩)
          exact absurd (by have := h k'; rw [hr, get_cons, if_pos rfl] at this; exact this.symm) hw'
      subst hkk
      have hww : w = w' := by simpa [get_cons] using h k
      subst hww
      congr 1
      refine ih hm' hn' fun a => ?_
      by_cases hak : k = a
      · subst hak; rw [get_eq_reset_of_lt hlt, get_eq_reset_of_lt hlt']
      · simpa [get_cons, hak] using h a

end Sys2Proof.Machine.Memory
end

