-- ==== Sys2Proof/Laws/State.lean ====
section
/-! SUPPORT. One lemma per field per state update, true by rfl. -/

namespace Sys2Proof.Machine.State

variable (s : State) (r : FaultRecord) (w : Nat) (l : Latch) (v : RegWord) (e : EngineState)

@[simp] theorem raise_mem : (s.raise r).mem = s.mem := rfl
@[simp] theorem raise_x : (s.raise r).x = s.x := rfl
@[simp] theorem raise_pc : (s.raise r).pc = s.pc := rfl
@[simp] theorem raise_engine : (s.raise r).engine = .faulted := rfl
@[simp] theorem raise_fault : (s.raise r).fault = some r := rfl
@[simp] theorem raise_ir : (s.raise r).ir = s.ir := rfl
@[simp] theorem raise_out : (s.raise r).out = s.out := rfl

@[simp] theorem advancePc_mem : (s.advancePc w).mem = s.mem := rfl
@[simp] theorem advancePc_x : (s.advancePc w).x = s.x := rfl
@[simp] theorem advancePc_pc : (s.advancePc w).pc = s.pc + BitVec.ofNat 9 w := rfl
@[simp] theorem advancePc_engine : (s.advancePc w).engine = s.engine := rfl
@[simp] theorem advancePc_fault : (s.advancePc w).fault = s.fault := rfl
@[simp] theorem advancePc_ir : (s.advancePc w).ir = s.ir := rfl
@[simp] theorem advancePc_out : (s.advancePc w).out = s.out := rfl

@[simp] theorem latch_mem : (s.latch l).mem = s.mem := rfl
@[simp] theorem latch_x : (s.latch l).x = s.x := rfl
@[simp] theorem latch_pc : (s.latch l).pc = s.pc := rfl
@[simp] theorem latch_engine : (s.latch l).engine = s.engine := rfl
@[simp] theorem latch_fault : (s.latch l).fault = s.fault := rfl
@[simp] theorem latch_ir : (s.latch l).ir = l := rfl
@[simp] theorem latch_out : (s.latch l).out = s.out := rfl

@[simp] theorem emit_mem : (s.emit v).mem = s.mem := rfl
@[simp] theorem emit_x : (s.emit v).x = s.x := rfl
@[simp] theorem emit_pc : (s.emit v).pc = s.pc := rfl
@[simp] theorem emit_engine : (s.emit v).engine = s.engine := rfl
@[simp] theorem emit_fault : (s.emit v).fault = s.fault := rfl
@[simp] theorem emit_ir : (s.emit v).ir = s.ir := rfl
@[simp] theorem emit_out : (s.emit v).out = s.out ++ [v] := rfl

@[simp] theorem setEngine_mem : (s.setEngine e).mem = s.mem := rfl
@[simp] theorem setEngine_x : (s.setEngine e).x = s.x := rfl
@[simp] theorem setEngine_pc : (s.setEngine e).pc = s.pc := rfl
@[simp] theorem setEngine_engine : (s.setEngine e).engine = e := rfl
@[simp] theorem setEngine_fault : (s.setEngine e).fault = s.fault := rfl
@[simp] theorem setEngine_ir : (s.setEngine e).ir = s.ir := rfl
@[simp] theorem setEngine_out : (s.setEngine e).out = s.out := rfl

end Sys2Proof.Machine.State
end

