-- ==== Sys2Proof/Laws/Ops.lean ====
section
/-! SUPPORT. One spec lemma per shared operation: everything it can answer. -/

namespace Sys2Proof.Machine

@[simp] theorem validIndex_iff (i : Byte) : validIndex i = true ↔ i.toNat < 8 := by simp [validIndex, Config.nregs]

@[simp] theorem validIndex_eq_false_iff (i : Byte) : validIndex i = false ↔ 8 ≤ i.toNat := by
  simp [validIndex, Config.nregs]

theorem regIndex_of_lt {i : Byte} (h : i.toNat < 8) : regIndex i = .ok ⟨i.toNat, h⟩ := by simp [regIndex, h]

theorem regIndex_of_ge {i : Byte} (h : 8 ≤ i.toNat) : regIndex i = .error ⟨.invalidRegister, i.toNat⟩ := by
  simp [regIndex, show ¬ i.toNat < 8 by omega]

@[simp] theorem immediate_eq (b : Byte) : immediate b = b := by simp [immediate]

namespace State

variable {s t : State} {i : Byte} {v : RegWord} {r : FaultRecord} {addr : Nat} {b : Byte}

theorem readReg_of_lt (h : i.toNat < 8) : s.readReg i = .ok s.x[i.toNat] := by
  simp [readReg, regIndex_of_lt h]

theorem readReg_of_ge (h : 8 ≤ i.toNat) : s.readReg i = .error ⟨.invalidRegister, i.toNat⟩ := by
  simp [readReg, regIndex_of_ge h]

theorem writeReg_of_lt (h : i.toNat < 8) : s.writeReg i v = .ok { s with x := s.x.set i.toNat v } := by
  simp [writeReg, regIndex_of_lt h]

theorem writeReg_of_ge (h : 8 ≤ i.toNat) : s.writeReg i v = .error ⟨.invalidRegister, i.toNat⟩ := by
  simp [writeReg, regIndex_of_ge h]

theorem memRead_of_lt (h : addr < 256) : s.memRead addr = .ok (Memory.get s.mem addr) := if_pos h

theorem memRead_of_ge (h : 256 ≤ addr) : s.memRead addr = .error ⟨.outOfBounds, addr⟩ := if_neg (Nat.not_lt.2 h)

theorem memWrite_of_lt (h : addr < 256) : s.memWrite addr b = .ok { s with mem := Memory.set s.mem addr b } := if_pos h

theorem memWrite_of_ge (h : 256 ≤ addr) : s.memWrite addr b = .error ⟨.outOfBounds, addr⟩ := if_neg (Nat.not_lt.2 h)

/-- A memory write that succeeds keeps the canonical form. -/
theorem memWrite_wf (hs : Memory.wf s.mem) (h : s.memWrite addr b = .ok t) : Memory.wf t.mem := by
  by_cases ha : addr < 256
  · rw [memWrite_of_lt ha] at h
    cases h
    exact Memory.set_wf hs ha b
  · rw [memWrite_of_ge (by omega)] at h
    cases h

/-- Every handler ends in a next state: the one it left, or the fault entry. -/
theorem finish_eq_next {effect : Except FaultRecord State} {t : State} (h : s.finish effect = .next t) :
    effect = .ok t ∨ ∃ r, effect = .error r ∧ t = s.raise r := by
  cases effect with
  | ok u => exact .inl (by simpa [finish] using h)
  | error r => exact .inr ⟨r, rfl, by simpa [finish] using h.symm⟩

end State

end Sys2Proof.Machine
end

