-- ==== Sys2Proof/Laws/Exec.lean ====
section
/-! SUPPORT. What each meaning answers, and the one inversion lemma of `exec`. -/

namespace Sys2Proof.Machine

variable {s t : State} {a b : Byte}

theorem execHlt_eq (s : State) : execHlt s = .next ((s.setEngine .halted).advancePc 1) := rfl

theorem execLdi_of_lt (h : a.toNat < 8) :
    execLdi a b s = .next (State.advancePc { s with x := s.x.set a.toNat b } 3) := by
  simp [execLdi, State.writeReg_of_lt h, State.finish]

theorem execLdi_of_ge (h : 8 ≤ a.toNat) : execLdi a b s = .next (s.raise ⟨.invalidRegister, a.toNat⟩) := by
  simp [execLdi, State.writeReg_of_ge h, State.finish]

theorem alu_mul (p q : RegWord) : alu AluOp.mul p q = .ok (p * q) := by
  have h : BitVec.ofNat 8 (p.toNat * q.toNat) = p * q := by
    apply BitVec.eq_of_toNat_eq
    simp [BitVec.toNat_mul]
  simp [alu, AluOp.add, AluOp.mul, h]

theorem alu_add (p q : RegWord) : alu AluOp.add p q = .ok (p + q) := by
  have h : BitVec.ofNat 8 (p.toNat + q.toNat) = p + q := by
    apply BitVec.eq_of_toNat_eq
    simp [BitVec.toNat_add]
  simp [alu, h]

/-- A tag that is neither ADD nor MUL raises, whatever the values (R100). -/
theorem alu_of_ne {op : AluOp} (h0 : op ≠ AluOp.add) (h1 : op ≠ AluOp.mul) (p q : RegWord) :
    alu op p q = .error ⟨.unsupportedOperation, op.toNat⟩ := by rw [alu, if_neg h0, if_neg h1]

theorem aluTagCheck_of_ne {op : AluOp} (h0 : op ≠ AluOp.add) (h1 : op ≠ AluOp.mul) :
    aluTagCheck op = .error ⟨.unsupportedOperation, op.toNat⟩ := by rw [aluTagCheck, if_neg (by tauto)]

theorem aluTagCheck_mul : aluTagCheck AluOp.mul = .ok () := by decide

theorem aluApply_mul_of_lt (ha : a.toNat < 8) (hb : b.toNat < 8) :
    s.aluApply AluOp.mul a b = .ok { s with x := s.x.set a.toNat (s.x[a.toNat] * s.x[b.toNat]) } := by
  simp [State.aluApply, aluTagCheck_mul, State.readReg_of_lt ha, State.readReg_of_lt hb, alu_mul, State.writeReg_of_lt ha]

theorem execMul_of_lt (ha : a.toNat < 8) (hb : b.toNat < 8) :
    execMul a b s = .next (State.advancePc { s with x := s.x.set a.toNat (s.x[a.toNat] * s.x[b.toNat]) } 3) := by
  simp [execMul, aluApply_mul_of_lt ha hb, State.finish]

theorem execMul_of_ge_left (ha : 8 ≤ a.toNat) : execMul a b s = .next (s.raise ⟨.invalidRegister, a.toNat⟩) := by
  simp [execMul, State.aluApply, aluTagCheck_mul, State.readReg_of_ge ha, State.finish]

theorem execMul_of_ge_right (ha : a.toNat < 8) (hb : 8 ≤ b.toNat) :
    execMul a b s = .next (s.raise ⟨.invalidRegister, b.toNat⟩) := by
  simp [execMul, State.aluApply, aluTagCheck_mul, State.readReg_of_lt ha, State.readReg_of_ge hb, State.finish]

theorem execPrn_of_lt (ha : a.toNat < 8) : execPrn a s = .next ((s.emit s.x[a.toNat]).advancePc 2) := by
  simp [execPrn, State.readReg_of_lt ha, State.finish]

theorem execPrn_of_ge (ha : 8 ≤ a.toNat) : execPrn a s = .next (s.raise ⟨.invalidRegister, a.toNat⟩) := by
  simp [execPrn, State.readReg_of_ge ha, State.finish]

/-- Everything `exec` can do: the four effects, or the one fault a handler can raise. -/
theorem exec_cases (i : Instr) (s : State) :
    (i = .hlt ∧ exec i s = .next ((s.setEngine .halted).advancePc 1)) ∨
    (∃ a b, ∃ ha : a.toNat < 8, i = .ldi a b ∧
      exec i s = .next (State.advancePc { s with x := s.x.set a.toNat b } 3)) ∨
    (∃ a b, ∃ (ha : a.toNat < 8) (hb : b.toNat < 8), i = .mul a b ∧
      exec i s = .next (State.advancePc { s with x := s.x.set a.toNat (s.x[a.toNat] * s.x[b.toNat]) } 3)) ∨
    (∃ a, ∃ ha : a.toNat < 8, i = .prn a ∧ exec i s = .next ((s.emit s.x[a.toNat]).advancePc 2)) ∨
    (∃ k : Byte, 8 ≤ k.toNat ∧ exec i s = .next (s.raise ⟨.invalidRegister, k.toNat⟩)) := by
  cases i with
  | hlt => exact .inl ⟨rfl, rfl⟩
  | ldi a b =>
    by_cases ha : a.toNat < 8
    · exact .inr (.inl ⟨a, b, ha, rfl, execLdi_of_lt ha⟩)
    · exact .inr (.inr (.inr (.inr ⟨a, by omega, execLdi_of_ge (by omega)⟩)))
  | mul a b =>
    by_cases ha : a.toNat < 8
    · by_cases hb : b.toNat < 8
      · exact .inr (.inr (.inl ⟨a, b, ha, hb, rfl, execMul_of_lt ha hb⟩))
      · exact .inr (.inr (.inr (.inr ⟨b, by omega, execMul_of_ge_right ha (by omega)⟩)))
    · exact .inr (.inr (.inr (.inr ⟨a, by omega, execMul_of_ge_left (by omega)⟩)))
  | prn a =>
    by_cases ha : a.toNat < 8
    · exact .inr (.inr (.inr (.inl ⟨a, ha, rfl, execPrn_of_lt ha⟩)))
    · exact .inr (.inr (.inr (.inr ⟨a, by omega, execPrn_of_ge (by omega)⟩)))

end Sys2Proof.Machine
end

