-- ==== Sys2Proof/Laws/Step.lean ====
section
/-! SUPPORT. What the fetch and the step answer: the inversion lemmas later proofs cite. -/

namespace Sys2Proof.Machine

variable {s t : State}

theorem State.running_iff : s.running = true ↔ s.engine = .running := by simp [State.running]

theorem fetch_of_le (h : s.pc.toNat ≤ 253) :
    s.fetch = .ok ⟨Memory.get s.mem s.pc.toNat, Memory.get s.mem (s.pc.toNat + 1), Memory.get s.mem (s.pc.toNat + 2)⟩ := by
  simp [State.fetch, State.memRead_of_lt (s := s) (show s.pc.toNat < 256 by omega),
    State.memRead_of_lt (s := s) (show s.pc.toNat + 1 < 256 by omega),
    State.memRead_of_lt (s := s) (show s.pc.toNat + 2 < 256 by omega)]

/-- The first address above 255 is 256, or `pc` itself beyond it. -/
theorem fetch_of_gt (h : 253 < s.pc.toNat) : s.fetch = .error ⟨.outOfBounds, max 256 s.pc.toNat⟩ := by
  by_cases h0 : 256 ≤ s.pc.toNat
  · simp [State.fetch, State.memRead_of_ge (s := s) h0, Nat.max_eq_right h0]
  · rcases (show s.pc.toNat = 254 ∨ s.pc.toNat = 255 by omega) with h1 | h1 <;>
      simp [State.fetch, State.memRead, h1, Config.memSize]

theorem step_of_not_running (h : s.engine ≠ .running) : step s = .refused (.notRunning s.engine) := by
  simp [step, State.running, h]

theorem step_of_running (h : s.engine = .running) : step s = s.cycle := by simp [step, State.running, h]

/-- What one step of a running engine does, by the row its opcode byte selects. -/
theorem step_cases (hr : s.engine = .running) :
    (253 < s.pc.toNat ∧ step s = .next (s.raise ⟨.outOfBounds, max 256 s.pc.toNat⟩)) ∨
    (s.pc.toNat ≤ 253 ∧ ∃ l, s.fetch = .ok l ∧
      ((∃ i, decode l.opcode l.operandA l.operandB = .ok i ∧ step s = exec i (s.latch l)) ∨
       (l.opcode ∉ [0x01, 0x82, 0xA2, 0x47] ∧
        step s = .next ((s.latch l).raise ⟨.unknownInstruction, l.opcode.toNat⟩)))) := by
  by_cases hp : s.pc.toNat ≤ 253
  · refine .inr ⟨hp, _, fetch_of_le hp, ?_⟩
    rw [step_of_running hr, State.cycle, fetch_of_le hp]
    simp only
    rcases decode_cases (Memory.get s.mem s.pc.toNat) (Memory.get s.mem (s.pc.toNat + 1))
      (Memory.get s.mem (s.pc.toNat + 2)) with ⟨-, h⟩ | ⟨-, h⟩ | ⟨-, h⟩ | ⟨-, h⟩ | ⟨h1, h2, h3, h4, h⟩
    · exact .inl ⟨_, h, by rw [h]⟩
    · exact .inl ⟨_, h, by rw [h]⟩
    · exact .inl ⟨_, h, by rw [h]⟩
    · exact .inl ⟨_, h, by rw [h]⟩
    · refine .inr ⟨?_, by rw [h]; rfl⟩
      simp only [List.mem_cons, List.not_mem_nil, or_false, not_or]
      exact ⟨h1, h2, h3, h4⟩
  · refine .inl ⟨by omega, ?_⟩
    rw [step_of_running hr, State.cycle, fetch_of_gt (by omega)]

/-- A step that exists is a step of a running engine. -/
theorem running_of_step (h : step s = .next t) : s.engine = .running := by
  by_contra hn
  rw [step_of_not_running hn] at h
  cases h

/-- Everything one step can do, in terms of the bytes it fetched: the fetch faults; or one of the four effects; or a
handler raises for an index above 7; or decode rejects the opcode byte. -/
theorem step_next_cases (h : step s = .next t) :
    s.engine = .running ∧
    ((253 < s.pc.toNat ∧ t = s.raise ⟨.outOfBounds, max 256 s.pc.toNat⟩) ∨
     (s.pc.toNat ≤ 253 ∧ ∃ op a b, s.memRead s.pc.toNat = .ok op ∧ s.memRead (s.pc.toNat + 1) = .ok a ∧
      s.memRead (s.pc.toNat + 2) = .ok b ∧ s.fetch = .ok ⟨op, a, b⟩ ∧
      ((op = 0x01 ∧ t = { s with ir := ⟨op, a, b⟩, engine := .halted, pc := s.pc + 1 }) ∨
       (∃ ha : a.toNat < 8, op = 0x82 ∧
         t = { s with ir := ⟨op, a, b⟩, x := s.x.set a.toNat b, pc := s.pc + 3 }) ∨
       (∃ (ha : a.toNat < 8) (hb : b.toNat < 8), op = 0xA2 ∧
         t = { s with ir := ⟨op, a, b⟩, x := s.x.set a.toNat (s.x[a.toNat] * s.x[b.toNat]), pc := s.pc + 3 }) ∨
       (∃ ha : a.toNat < 8, op = 0x47 ∧
         t = { s with ir := ⟨op, a, b⟩, out := s.out ++ [s.x[a.toNat]], pc := s.pc + 2 }) ∨
       (∃ k : Byte, 8 ≤ k.toNat ∧ op ≠ 0x01 ∧ t = (s.latch ⟨op, a, b⟩).raise ⟨.invalidRegister, k.toNat⟩) ∨
       (op ∉ [0x01, 0x82, 0xA2, 0x47] ∧ t = (s.latch ⟨op, a, b⟩).raise ⟨.unknownInstruction, op.toNat⟩)))) := by
  have hr := running_of_step h
  refine ⟨hr, ?_⟩
  rcases step_cases hr with ⟨hp, e⟩ | ⟨hp, ⟨op, a, b⟩, hf, e⟩
  · rw [e] at h; cases h; exact .inl ⟨hp, rfl⟩
  have hf' := hf
  rw [fetch_of_le hp] at hf'
  injection hf' with hf'
  injection hf' with h1 h2 h3
  have m1 := State.memRead_of_lt (s := s) (addr := s.pc.toNat) (by omega)
  have m2 := State.memRead_of_lt (s := s) (addr := s.pc.toNat + 1) (by omega)
  have m3 := State.memRead_of_lt (s := s) (addr := s.pc.toNat + 2) (by omega)
  rw [h1] at m1; rw [h2] at m2; rw [h3] at m3
  refine .inr ⟨hp, op, a, b, m1, m2, m3, hf, ?_⟩
  rcases e with ⟨i, hd, e⟩ | ⟨hn, e⟩
  · rw [h] at e
    simp only at hd
    have bad : ∀ v : Byte, 8 ≤ v.toNat → op ≠ 0x01 →
        exec i (s.latch ⟨op, a, b⟩) = .next ((s.latch ⟨op, a, b⟩).raise ⟨.invalidRegister, v.toNat⟩) →
        ∃ k : Byte, 8 ≤ k.toNat ∧ op ≠ 0x01 ∧ t = (s.latch ⟨op, a, b⟩).raise ⟨.invalidRegister, k.toNat⟩ :=
      fun v hv ho he => ⟨v, hv, ho, by rw [he] at e; cases e; rfl⟩
    rcases decode_cases op a b with ⟨ho, hd'⟩ | ⟨ho, hd'⟩ | ⟨ho, hd'⟩ | ⟨ho, hd'⟩ | ⟨-, -, -, -, hd'⟩ <;>
      rw [hd'] at hd <;> cases hd
    · rw [show exec .hlt _ = _ from execHlt_eq _] at e
      cases e
      exact .inl ⟨ho, rfl⟩
    · by_cases ha : a.toNat < 8
      · rw [show exec (.ldi a b) _ = _ from execLdi_of_lt ha] at e
        cases e
        exact .inr (.inl ⟨ha, ho, rfl⟩)
      · exact .inr (.inr (.inr (.inr (.inl (bad a (by omega) (by rw [ho]; decide) (execLdi_of_ge (by omega)))))))
    · by_cases ha : a.toNat < 8
      · by_cases hb : b.toNat < 8
        · rw [show exec (.mul a b) _ = _ from execMul_of_lt ha hb] at e
          cases e
          exact .inr (.inr (.inl ⟨ha, hb, ho, rfl⟩))
        · exact .inr (.inr (.inr (.inr (.inl (bad b (by omega) (by rw [ho]; decide) (execMul_of_ge_right ha (by omega)))))))
      · exact .inr (.inr (.inr (.inr (.inl (bad a (by omega) (by rw [ho]; decide) (execMul_of_ge_left (by omega)))))))
    · by_cases ha : a.toNat < 8
      · rw [show exec (.prn a) _ = _ from execPrn_of_lt ha] at e
        cases e
        exact .inr (.inr (.inr (.inl ⟨ha, ho, rfl⟩)))
      · exact .inr (.inr (.inr (.inr (.inl (bad a (by omega) (by rw [ho]; decide) (execPrn_of_ge (by omega)))))))
  · rw [h] at e; cases e
    exact .inr (.inr (.inr (.inr (.inr ⟨hn, rfl⟩))))

/-- The host's `run` over a step that exists. -/
theorem core_run_next (h : step s = .next t) (n : Nat) :
    Host.Core.run Sys2Proof.core (n + 1) s = Host.Core.run Sys2Proof.core n t := by
  have key : ∀ (M : Host.Core) (u v : M.State), M.step u = .next v → Host.Core.run M (n + 1) u = Host.Core.run M n v :=
    fun M u v huv => by rw [Host.Core.run, huv]
  exact key Sys2Proof.core s t h

/-- The host's `run` where the engine does not run. -/
theorem core_run_stopped (h : s.engine ≠ .running) (n : Nat) :
    Host.Core.run Sys2Proof.core (n + 1) s = .refused (.notRunning s.engine) := by
  have key : ∀ (M : Host.Core) (u : M.State) (r : M.Refusal), M.step u = .refused r →
      Host.Core.run M (n + 1) u = .refused r := fun M u r hur => by rw [Host.Core.run, hur]
  exact key Sys2Proof.core s _ (step_of_not_running h)

end Sys2Proof.Machine
end

