-- ==== Sys2Proof/Laws/HostOps.lean ====
section
/-! SUPPORT. What the memory operations built from several writes keep: placing an instruction and loading an image. -/

namespace Sys2Proof.Machine

/-- Placing three bytes inside the memory keeps the canonical form. -/
theorem place_wf {m : List Host.Cell} (hm : Memory.wf m) {p : Nat} (hp : p ≤ 253) (b0 b1 b2 : Byte) :
    Memory.wf (Memory.place m p b0 b1 b2) :=
  Memory.set_wf (Memory.set_wf (Memory.set_wf hm (by omega) b0) (by omega) b1) (by omega) b2

/-- Loading keeps the canonical form and touches neither registers, nor `pc`, nor the latch, nor the output log. -/
theorem loadFrom_frame (image : List Byte) : ∀ (k : Nat) (s : State), Memory.wf s.mem →
    Memory.wf (loadFrom k image s).mem ∧ (loadFrom k image s).x = s.x ∧ (loadFrom k image s).pc = s.pc ∧
      (loadFrom k image s).ir = s.ir ∧ (loadFrom k image s).out = s.out := by
  induction image with
  | nil => exact fun k s hs => ⟨hs, rfl, rfl, rfl, rfl⟩
  | cons v rest ih =>
    intro k s hs
    by_cases hk : k < 256
    · have hw := State.memWrite_of_lt (s := s) (b := v) hk
      have h := ih (k + 1) _ (State.memWrite_wf hs hw)
      simpa only [loadFrom, hw] using h
    · have hw := State.memWrite_of_ge (s := s) (b := v) (by omega : 256 ≤ k)
      simp only [loadFrom, hw, State.raise_mem, State.raise_x, State.raise_pc, State.raise_ir, State.raise_out, and_self,
        and_true]
      exact hs

end Sys2Proof.Machine
end

