-- ==== Sys2Proof/Laws/PerInstr.lean ====
section
/-! SUPPORT. Statements made for every instruction, one lemma per constructor. -/

namespace Sys2Proof.Laws

namespace OpcodeMap

/-- The row of the opcode map an instruction's first byte selects has the instruction's own width, and the encoding is
that many bytes long, 1 to 3 (R50, R54, R55). -/
def Statement (i : Instr) : Prop :=
  widthOfOpcode i.opcode = some i.width ∧ (encode i).length = i.width ∧ (encode i).head? = some i.opcode ∧
    1 ≤ i.width ∧ i.width ≤ 3

theorem hlt : Statement .hlt := ⟨by decide, rfl, rfl, by decide, by decide⟩

theorem ldi (a b : Byte) : Statement (.ldi a b) :=
  ⟨show widthOfOpcode 0x82 = some 3 by decide, rfl, rfl, by simp [Instr.width], by simp [Instr.width]⟩

theorem mul (a b : Byte) : Statement (.mul a b) :=
  ⟨show widthOfOpcode 0xA2 = some 3 by decide, rfl, rfl, by simp [Instr.width], by simp [Instr.width]⟩

theorem prn (a : Byte) : Statement (.prn a) :=
  ⟨show widthOfOpcode 0x47 = some 2 by decide, rfl, rfl, by simp [Instr.width], by simp [Instr.width]⟩

end OpcodeMap

end Sys2Proof.Laws
end

