-- ==== Sys2Proof/Tests/Slice0.lean ====
section
/-! SUPPORT. Tests whose expected results are the spec's own examples (spec/95_test_vectors.md, cited by id), the smoke
tests of WellFormed, and for each statement with hypotheses a state and operands that meet them. -/

open Sys2Proof Sys2Proof.Machine

namespace Sys2Proof.Tests

/-- The state an outcome answers, if it answers one. -/
def next? : Host.Outcome State Fault Refusal → Option State
  | .next t => some t
  | .fault _ => none
  | .refused _ => none

/-- Consecutive non-zero bytes from an address on, as memory. -/
def cells : Nat → List Byte → List Host.Cell
  | _, [] => []
  | k, v :: rest => Memory.cons k v (cells (k + 1) rest)

/-- A running engine at `pc` with these bytes there and zeros elsewhere. -/
def at_ (pc : PcWord) (bytes : List Byte) : State :=
  { State.reset with mem := cells pc.toNat bytes, pc := pc, engine := .running }

/-- The same with two registers set. -/
def withRegs (s : State) (i : Fin 8) (v : RegWord) (j : Fin 8) (w : RegWord) : State :=
  { s with x := (s.x.set i v).set j w }

/-- What the tests look at in a state. -/
structure Seen where
  engine : EngineState
  fault  : Option FaultRecord
  pc     : PcWord
  x      : List RegWord
  out    : List RegWord
  deriving DecidableEq, Repr

/-- What a step leaves. -/
def after (s : State) : Option Seen := (next? (step s)).map fun t => ⟨t.engine, t.fault, t.pc, t.x.toList, t.out⟩

/-! ## WellFormed: an ill-formed term for each check -/

theorem test_wellFormed_refuses_ldi_index : (Instr.ldi 8 1).wellFormed = false := by decide
theorem test_wellFormed_refuses_mul_first_index : (Instr.mul 8 0).wellFormed = false := by decide
theorem test_wellFormed_refuses_mul_second_index : (Instr.mul 0 0xFF).wellFormed = false := by decide
theorem test_wellFormed_refuses_prn_index : (Instr.prn 0x08).wellFormed = false := by decide
theorem test_wellFormed_accepts_index_seven : (Instr.mul 7 7).wellFormed = true := by decide
theorem test_placeable_refuses_254 : placeable 254 = false ∧ placeable 253 = true := by decide
theorem test_imageFits_refuses_257 : imageFits (List.replicate 257 0) = false ∧ imageFits (List.replicate 256 0) = true :=
  ⟨decide_eq_false (by rw [List.length_replicate]; decide), decide_eq_true (by rw [List.length_replicate])⟩

/-! ## Decode: words written out bit by bit from the opcode map (R55), first byte in the low bits -/

theorem test_decode_hlt : decodeTableWord 8 0b00000001 = some .hlt := by decide
theorem test_decode_ldi : decodeTableWord 24 0b11001000_00000001_10000010 = some (.ldi 1 200) := by decide
theorem test_decode_mul : decodeTableWord 24 0b00000001_00000000_10100010 = some (.mul 0 1) := by decide
theorem test_decode_prn : decodeTableWord 16 0b00000000_01000111 = some (.prn 0) := by decide
/-- V-DEC-5, V-DEC-6: neither 0x00 nor LS-8's ADD is an opcode. -/
theorem test_decode_rejects_00_and_A0 : decodeTableWord 8 0x00 = none ∧ decodeTableWord 8 0xA0 = none := by decide
/-- V-DEC-8: one bit away from HLT. -/
theorem test_decode_rejects_neighbours_of_hlt :
    [0x00, 0x03, 0x05, 0x09, 0x11, 0x21, 0x41, 0x81].all (fun n => decodeTableWord 8 n == none) = true := by decide
/-- V-DEC-9 to V-DEC-11: one bit away from LDI, MUL and PRN. -/
theorem test_decode_rejects_other_neighbours :
    [0x83, 0x80, 0x86, 0x8A, 0x92, 0xC2, 0x02, 0xA3, 0xA0, 0xA6, 0xAA, 0xB2, 0xE2, 0x22, 0x46, 0x45, 0x43, 0x4F, 0x57,
      0x67, 0x07, 0xC7].all (fun n => decodeTableWord 8 n == none) = true := by decide
/-- The scenario A image read as code (S1). -/
theorem test_disassemble_scenario_a :
    disassemble [0x82, 0x00, 0x08, 0x47, 0x00, 0x01] = .ok [.ldi 0 8, .prn 0, .hlt] := by decide

/-! ## HLT -/

/-- V-HLT-3. -/
theorem test_hlt : after (withRegs (at_ 0 [0x01, 0x82, 0x00]) 0 9 1 0) =
    some ⟨.halted, none, 1, [9, 0, 0, 0, 0, 0, 0, 0], []⟩ := by decide
/-- V-FET-1, V-FET-2. -/
theorem test_hlt_at_the_end : after (at_ 253 [0x01]) = some ⟨.halted, none, 254, [0, 0, 0, 0, 0, 0, 0, 0], []⟩ ∧
    after (at_ 254 [0x01]) = some ⟨.faulted, some ⟨.outOfBounds, 256⟩, 254, [0, 0, 0, 0, 0, 0, 0, 0], []⟩ := by decide

/-! ## LDI -/

/-- V-FET-4, with V-FET-5's next step. -/
theorem test_ldi_at_253 : after (at_ 253 [0x82, 0x00, 0x07]) = some ⟨.running, none, 256, [7, 0, 0, 0, 0, 0, 0, 0], []⟩ ∧
    after (at_ 256 []) = some ⟨.faulted, some ⟨.outOfBounds, 256⟩, 256, [0, 0, 0, 0, 0, 0, 0, 0], []⟩ := by decide
/-- V-LDI-2, V-LDI-7. -/
theorem test_ldi_last_register_and_no_masking :
    after (at_ 0 [0x82, 0x07, 0xFF]) = some ⟨.running, none, 3, [0, 0, 0, 0, 0, 0, 0, 255], []⟩ ∧
    after (at_ 0 [0x82, 0x09, 0x01]) = some ⟨.faulted, some ⟨.invalidRegister, 9⟩, 0, [0, 0, 0, 0, 0, 0, 0, 0], []⟩ := by
  decide

/-! ## MUL -/

/-- V-MUL-8, V-MUL-11. -/
theorem test_mul_wraps_into_operand_a :
    after (withRegs (at_ 0 [0xA2, 0x00, 0x01]) 0 200 1 200) =
      some ⟨.running, none, 3, [64, 200, 0, 0, 0, 0, 0, 0], []⟩ ∧
    after (withRegs (at_ 0 [0xA2, 0x01, 0x00]) 0 5 1 6) = some ⟨.running, none, 3, [5, 30, 0, 0, 0, 0, 0, 0], []⟩ := by
  decide
/-- V-MUL-12, V-MUL-13. -/
theorem test_mul_invalid_indices :
    after (withRegs (at_ 0 [0xA2, 0x00, 0x08]) 0 5 1 0) =
      some ⟨.faulted, some ⟨.invalidRegister, 8⟩, 0, [5, 0, 0, 0, 0, 0, 0, 0], []⟩ ∧
    after (at_ 0 [0xA2, 0x09, 0x08]) = some ⟨.faulted, some ⟨.invalidRegister, 9⟩, 0, [0, 0, 0, 0, 0, 0, 0, 0], []⟩ := by
  decide
/-- V-ALU-1 to V-ALU-3, V-ALU-8. -/
theorem test_alu_add_and_tags : alu AluOp.add 200 200 = .ok 144 ∧ alu AluOp.add 255 1 = .ok 0 ∧
    alu AluOp.add 255 255 = .ok 254 ∧ alu 2 1 1 = .error ⟨.unsupportedOperation, 2⟩ := by decide

/-! ## PRN -/

/-- V-PRN-2, V-PRN-5. -/
theorem test_prn_appends :
    after { withRegs (at_ 0 [0x47, 0x07]) 7 255 1 0 with out := [1] } =
      some ⟨.running, none, 2, [0, 0, 0, 0, 0, 0, 0, 255], [1, 255]⟩ ∧
    after (withRegs (at_ 0 [0x47, 0x00, 0xFF]) 0 3 1 0) = some ⟨.running, none, 2, [3, 0, 0, 0, 0, 0, 0, 0], [3]⟩ := by
  decide
/-- V-PRN-4. -/
theorem test_prn_invalid_index :
    after (at_ 0 [0x47, 0x08]) = some ⟨.faulted, some ⟨.invalidRegister, 8⟩, 0, [0, 0, 0, 0, 0, 0, 0, 0], []⟩ := by decide

/-! ## Faults, host, trace -/

/-- V-PRI-1, V-PRI-4. -/
theorem test_fault_priority :
    after (at_ 254 [0xFF]) = some ⟨.faulted, some ⟨.outOfBounds, 256⟩, 254, [0, 0, 0, 0, 0, 0, 0, 0], []⟩ ∧
    after (at_ 0 [0xFF, 0x09, 0x09]) =
      some ⟨.faulted, some ⟨.unknownInstruction, 0xFF⟩, 0, [0, 0, 0, 0, 0, 0, 0, 0], []⟩ := by decide

/-- V-RST-3: the over-long image. -/
theorem test_load_of_257_bytes_faults :
    ((next? (hostLoad (List.replicate 257 0x01) State.reset)).map fun t => (t.engine, t.fault, t.pc)) =
      some (.faulted, some ⟨.outOfBounds, 256⟩, 0) := by decide +kernel

/-- The scenario A image loaded after reset (R183). -/
def loadedA : State := loadFrom 0 [0x82, 0x00, 0x08, 0x47, 0x00, 0x01] State.reset

/-- V-TRC-1: 46 characters and a newline. -/
theorem test_trace_after_load : loadedA.trace = some
    ['T', 'R', 'A', 'C', 'E', ':', ' ', '0', '0', ' ', '|', ' ', '8', '2', ' ', '0', '0', ' ', '0', '8', ' ', '|', ' ',
      '0', '0', ' ', '0', '0', ' ', '0', '0', ' ', '0', '0', ' ', '0', '0', ' ', '0', '0', ' ', '0', '0', ' ', '0', '0',
      '\n'] := by decide

/-- S1: what the host sees of scenario A. -/
theorem test_run_scenario_a : ((next? (hostRun loadedA)).map fun t => (t.engine, t.pc, t.out, t.shownOutput)) =
    some (.halted, 6, [8], [['8']]) := by decide +kernel

/-- R61's own spelling of the listing of scenario A. -/
theorem test_asm : asm (.ldi 0 8) = some ['L', 'D', 'I', ' ', 'R', '0', ',', '8'] ∧ asm (.prn 8) = none := by decide

/-- Two strobes at once are refused; `host_we` while running changes nothing (R172). -/
theorem test_strobes : (∀ s : State, s.strobe ⟨true, true, 0, 0, false⟩ = .refused .strobesTogether) ∧
    next? ((at_ 0 []).strobe ⟨false, true, 3, 7, false⟩) = some (at_ 0 []) := ⟨fun _ => rfl, by decide⟩

/-- One `out_valid` pulse with the value of a PRN (R173). -/
theorem test_outPulse : ((next? (step (withRegs (at_ 0 [0x47, 0x00]) 0 3 1 0))).map fun t => outPulse (at_ 0 []) t) =
    some (some 3) := by decide

/-- The placed word is fetched and run as the first instruction after reset, and from a terminal state too. -/
theorem test_withFetchWord :
    after (State.reset.withFetchWord 24 0x080082) = some ⟨.running, none, 3, [8, 0, 0, 0, 0, 0, 0, 0], []⟩ ∧
    after ({ State.reset with pc := 256, engine := .faulted, fault := some ⟨.outOfBounds, 256⟩ }.withFetchWord 8 0xFF01) =
      some ⟨.halted, none, 1, [0, 0, 0, 0, 0, 0, 0, 0], []⟩ := by decide

/-! ## Witnesses: for each statement with hypotheses, a state and operands that meet them, at the boundaries -/

theorem witness_RegisterReadChecksWholeIndex : (7 : Byte).toNat < 8 ∧ 8 ≤ (8 : Byte).toNat ∧
    State.reset.readReg 8 = .error ⟨.invalidRegister, 8⟩ := by decide

theorem witness_RegisterWriteSetsOneRegister : (7 : Byte).toNat < 8 ∧ (6 : Byte) ≠ 7 ∧ 8 ≤ (8 : Byte).toNat := by decide

theorem witness_MemReadFailsExactlyAbove255 : 255 ≤ 255 ∧ 255 < 256 ∧ State.reset.memRead 255 = .ok 0 ∧
    State.reset.memRead 256 = .error ⟨.outOfBounds, 256⟩ := by decide

theorem witness_MemWriteMutatesOneCell : Memory.wf (at_ 0 [0x82, 0x00, 0x08]).mem ∧ 255 ≤ 255 ∧ 254 ≠ 255 ∧ 255 < 256 ∧
    ∃ t, exec .hlt (at_ 0 []) = .next t := ⟨by decide, by decide, by decide, by decide, _, rfl⟩

theorem witness_AluComputesByTag : (0 : AluOp) = 0 ∧ (1 : AluOp) = 1 ∧ (2 : AluOp) ≠ 0 ∧ (2 : AluOp) ≠ 1 := by decide

theorem witness_UnsupportedOperationNeverRaisedByAStep : (3 : AluOp) ≠ AluOp.add ∧ (3 : AluOp) ≠ AluOp.mul ∧
    ∃ t, step (at_ 0 [0xA2, 0x09, 0x08]) = .next t := ⟨by decide, by decide, _, rfl⟩

theorem witness_LdiThenReadYieldsTheByte : (7 : Byte).toNat < 8 := by decide

theorem witness_MulSetsTheWrappedProduct : (0 : Byte).toNat < 8 ∧ (7 : Byte).toNat < 8 := by decide

theorem witness_PrnCompletes : (7 : Byte).toNat < 8 := by decide

theorem witness_RegisterWritersFrame :
    (∃ t, exec (.ldi 7 1) (at_ 0 []) = .next t) ∧ (Instr.ldi 7 1).wellFormed = true ∧ (6 : Fin 8).val ≠ (7 : Byte).toNat ∧
    (∃ t, exec (.mul 7 8) (at_ 0 []) = .next t) ∧ (Instr.mul 7 8).wellFormed = false :=
  ⟨⟨_, rfl⟩, by decide, by decide, ⟨_, rfl⟩, by decide⟩

theorem witness_HltAndPrnFrame :
    (∃ t, exec .hlt (at_ 0 []) = .next t) ∧ (∃ t, exec (.prn 7) (at_ 0 []) = .next t) ∧ (Instr.prn 7).wellFormed = true ∧
    (∃ t, exec (.prn 8) (at_ 0 []) = .next t) ∧ (Instr.prn 8).wellFormed = false :=
  ⟨⟨_, rfl⟩, ⟨_, rfl⟩, by decide, ⟨_, rfl⟩, by decide⟩

theorem witness_HandlerAdvanceIsRowWidth : ∃ t, exec (.ldi 7 1) (at_ 0 []) = .next t ∧ t.engine ≠ .faulted :=
  ⟨_, rfl, by decide⟩

theorem witness_StepExistsExactlyWhileRunning : (at_ 0 []).engine = .running ∧ State.reset.engine ≠ .running := by decide

theorem witness_StepRunsTheDecodedInstruction : (at_ 253 [0x82, 0x07, 0x01]).engine = .running ∧
    (at_ 253 [0x82, 0x07, 0x01]).memRead 253 = .ok 0x82 ∧ (at_ 253 [0x82, 0x07, 0x01]).memRead 254 = .ok 0x07 ∧
    (at_ 253 [0x82, 0x07, 0x01]).memRead 255 = .ok 0x01 ∧ decode 0x82 0x07 0x01 = .ok (.ldi 7 1) := by decide

theorem witness_FetchWindowMustLieInMemory : (at_ 253 []).pc.toNat ≤ 253 ∧ 254 ≤ (at_ 254 []).pc.toNat ∧
    (at_ 256 []).pc.toNat ≤ 256 ∧ (at_ 254 []).engine = .running := by decide

theorem witness_IllegalOpcodeRaisesUnknownInstruction : (0x00 : Byte) ≠ 0x01 ∧ (0x00 : Byte) ≠ 0x82 ∧
    (0x00 : Byte) ≠ 0xA2 ∧ (0x00 : Byte) ≠ 0x47 ∧ (at_ 253 []).engine = .running ∧ (at_ 253 []).pc.toNat ≤ 253 ∧
    (at_ 253 []).memRead 253 = .ok 0x00 := by decide

theorem witness_HltStep : (at_ 253 [0x01]).engine = .running ∧ (at_ 253 [0x01]).memRead 253 = .ok 0x01 ∧
    (at_ 253 [0x01]).memRead 254 = .ok 0 ∧ (at_ 253 [0x01]).memRead 255 = .ok 0 ∧ (at_ 256 []).engine = .running ∧
    254 ≤ (at_ 256 []).pc.toNat ∧ (at_ 256 []).pc.toNat ≤ 256 := by decide

theorem witness_LdiStep : (at_ 253 [0x82, 0x07, 0xFF]).memRead 253 = .ok 0x82 ∧
    (at_ 253 [0x82, 0x07, 0xFF]).memRead 254 = .ok 0x07 ∧ (at_ 253 [0x82, 0x07, 0xFF]).memRead 255 = .ok 0xFF ∧
    (at_ 253 [0x82, 0x07, 0xFF]).engine = .running ∧ (7 : Byte).toNat < 8 ∧
    (at_ 0 [0x82, 0x08, 0x01]).memRead 1 = .ok 0x08 ∧ 8 ≤ (8 : Byte).toNat ∧ 254 ≤ (at_ 254 []).pc.toNat := by decide

theorem witness_MulStep : (at_ 253 [0xA2, 0x07, 0x00]).memRead 253 = .ok 0xA2 ∧
    (at_ 253 [0xA2, 0x07, 0x00]).memRead 254 = .ok 0x07 ∧ (at_ 253 [0xA2, 0x07, 0x00]).memRead 255 = .ok 0x00 ∧
    (at_ 253 [0xA2, 0x07, 0x00]).engine = .running ∧ (7 : Byte).toNat < 8 ∧ (0 : Byte).toNat < 8 ∧
    (at_ 0 [0xA2, 0x00, 0x08]).memRead 2 = .ok 0x08 ∧ (at_ 0 [0xA2, 0x08, 0x00]).memRead 1 = .ok 0x08 ∧
    8 ≤ (8 : Byte).toNat ∧ (at_ 256 []).pc.toNat ≤ 256 := by decide

theorem witness_PrnStep : (at_ 253 [0x47, 0x07, 0x01]).memRead 253 = .ok 0x47 ∧
    (at_ 253 [0x47, 0x07, 0x01]).memRead 254 = .ok 0x07 ∧ (at_ 253 [0x47, 0x07, 0x01]).memRead 255 = .ok 0x01 ∧
    (at_ 253 [0x47, 0x07, 0x01]).engine = .running ∧ (7 : Byte).toNat < 8 ∧
    (at_ 0 [0x47, 0x08]).memRead 1 = .ok 0x08 ∧ 8 ≤ (8 : Byte).toNat ∧ 254 ≤ (at_ 254 []).pc.toNat := by decide

theorem witness_BytesBeyondTheWidthNeverMatter :
    (at_ 253 [0x47, 0x07]).engine = .running ∧
    at_ 253 [0x47, 0x07, 0xFF] = { at_ 253 [0x47, 0x07] with mem := (at_ 253 [0x47, 0x07, 0xFF]).mem } ∧
    (at_ 253 [0x47, 0x07]).memRead 253 = .ok 0x47 ∧ widthOfOpcode 0x47 = some 2 ∧
    (∀ k < 2, (at_ 253 [0x47, 0x07, 0xFF]).memRead (253 + k) = (at_ 253 [0x47, 0x07]).memRead (253 + k)) ∧
    ∃ t, step (at_ 253 [0x47, 0x07]) = .next t :=
  ⟨by decide, by decide, by decide, by decide, by decide, _, rfl⟩

theorem witness_StepAdvancesPcByWidthUnlessItFaults :
    (∃ t, step (at_ 253 [0x82]) = .next t ∧ t.engine ≠ .faulted) ∧
    (∃ t, step (at_ 254 [0x82]) = .next t ∧ t.engine = .faulted) :=
  ⟨⟨_, rfl, by decide⟩, ⟨_, rfl, by decide⟩⟩

theorem witness_OnlyTheNamedInstructionChangesEachPart :
    ∃ t, step (at_ 0 [0x82, 0x07, 0x01]) = .next t ∧ t.x[(7 : Fin 8)] ≠ (at_ 0 [0x82, 0x07, 0x01]).x[(7 : Fin 8)] :=
  ⟨_, rfl, by decide⟩

theorem witness_EngineHaltsExactlyByHlt :
    (∃ t, step (at_ 253 [0x01]) = .next t ∧ t.engine = .halted) ∧
    (∃ t, step (at_ 0 [0x47]) = .next t ∧ t.engine = .running) := ⟨⟨_, rfl, by decide⟩, ⟨_, rfl, by decide⟩⟩

theorem witness_AfterHltNoStepExists : ∃ t, exec .hlt (at_ 5 [0x01]) = .next t := ⟨_, rfl⟩

theorem witness_ExitStatusByEngineState : { State.reset with engine := .halted }.engine = EngineState.halted ∧
    { State.reset with engine := .faulted }.engine = EngineState.faulted ∧ State.reset.engine = .ready ∧
    (at_ 0 []).engine = .running := by decide

theorem witness_FaultingStepChangesNothingElse :
    ∃ t, step (at_ 0 [0x47, 0x08]) = .next t ∧ t.engine = .faulted := ⟨_, rfl, by decide⟩

theorem witness_FirstFaultInPriorityOrderIsReported :
    (at_ 254 [0xFF]).engine = .running ∧ 254 ≤ (at_ 254 [0xFF]).pc.toNat ∧ (at_ 254 [0xFF]).pc.toNat ≤ 256 ∧
    (at_ 253 [0xFF, 0x09, 0x09]).memRead 253 = .ok 0xFF ∧ widthOfOpcode 0xFF = none ∧ (2 : AluOp) ≠ AluOp.add ∧
    (2 : AluOp) ≠ AluOp.mul ∧ 8 ≤ (9 : Byte).toNat ∧ (7 : Byte).toNat < 8 ∧ 8 ≤ (8 : Byte).toNat := by decide

theorem witness_EveryRunEndsWithinItsBound : (at_ 0 []).engine = .running := by decide

theorem witness_ResetGivesTheTableOfResetValues : 255 ≤ 255 := by decide

/-- The invariant holds of a running state with a program loaded. -/
theorem loadedA_running_inv : (loadedA.setEngine .running).Inv :=
  ⟨by decide, by decide, by decide, fun r h => absurd (show none = some r from h) nofun,
    fun h => absurd h (by decide), fun h => absurd h (by decide), by decide⟩

theorem witness_StepKeepsMachineInvariant :
    (loadedA.setEngine .running).Inv ∧ ∃ t, step (loadedA.setEngine .running) = .next t :=
  ⟨loadedA_running_inv, _, rfl⟩

/-- The invariant holds of a loaded machine in `Ready`, where the host's operations act. -/
theorem loadedA_inv : loadedA.Inv :=
  ⟨by decide, by decide, by decide, fun r h => absurd (show none = some r from h) nofun,
    fun _ => ⟨by decide, by decide, by decide, by decide⟩, fun h => absurd h (by decide), by decide⟩

theorem witness_HostOperationsKeepMachineInvariant : loadedA.Inv ∧ (∃ t, hostWrite 255 1 loadedA = .next t) ∧
    (∃ t, hostWrite 256 1 loadedA = .next t) ∧ (∃ t, hostLoad [1] loadedA = .next t) ∧ ∃ t, hostRun loadedA = .next t :=
  ⟨loadedA_inv, ⟨_, rfl⟩, ⟨_, rfl⟩, ⟨_, rfl⟩, _, rfl⟩

theorem witness_HostWriteTouchesOneCell : loadedA.engine = .ready ∧ Memory.wf loadedA.mem ∧ 255 ≤ 255 ∧ 255 < 256 := by
  decide

theorem witness_LoadCopiesTheImageFromAddressZero : loadedA.engine = .ready ∧ Memory.wf loadedA.mem ∧
    (List.replicate 256 (0x01 : Byte)).length ≤ 256 ∧ 256 < (List.replicate 257 (0x01 : Byte)).length :=
  ⟨by decide, by decide, by rw [List.length_replicate], by rw [List.length_replicate]; decide⟩

theorem witness_RunAlwaysEndsTerminal : loadedA.engine = .ready := by decide

theorem witness_HostOperationsRefusedOutsideReady : (at_ 0 []).engine ≠ .ready := by decide

theorem witness_TraceLineShowsPcBytesAndRegisters : 253 < (at_ 254 []).pc.toNat ∧ (at_ 253 []).pc.toNat ≤ 253 ∧
    (at_ 253 []).trace = (State.trace { at_ 253 [] with out := [1] }) := by decide

theorem witness_StatusPortsCarryEngineAndFault :
    State.reset.fault = none ∧ (State.reset.raise ⟨.outOfBounds, 511⟩).fault = some ⟨.outOfBounds, 511⟩ ∧ 511 < 512 := by
  decide

theorem witness_PlacedInstructionIsRunNext : Memory.wf loadedA.mem ∧ decodeTableWord 16 0x0747 = some (.prn 7) := by decide

end Sys2Proof.Tests
end

section
/-! SUPPORT. Rules for the register file and the exit status, and the statements of spec/10_state.md they settle. -/

open Sys2Proof Sys2Proof.Machine

namespace Sys2Proof.Machine.State

variable {s t : State} {i j : Byte} {v : RegWord}

/-- What a register write that succeeds says: its index is valid, and only register `i` is replaced. -/
theorem writeReg_eq_ok_iff :
    s.writeReg i v = .ok t ↔ ∃ h : i.toNat < 8, t = { s with x := s.x.set i.toNat v } := by
  by_cases h : i.toNat < 8
  · simp [writeReg_of_lt h, h, eq_comm]
  · simp [writeReg_of_ge (Nat.le_of_not_lt h), h]

theorem readReg_writeReg_same (h : s.writeReg i v = .ok t) : t.readReg i = .ok v := by
  obtain ⟨hi, rfl⟩ := writeReg_eq_ok_iff.1 h
  simp [readReg_of_lt hi]

theorem readReg_writeReg_of_ne (h : s.writeReg i v = .ok t) (hji : j ≠ i) : t.readReg j = s.readReg j := by
  obtain ⟨hi, rfl⟩ := writeReg_eq_ok_iff.1 h
  by_cases hj : j.toNat < 8
  · have hne : i.toNat ≠ j.toNat := fun he => hji (BitVec.eq_of_toNat_eq he.symm)
    simp [readReg_of_lt hj, Vector.getElem_set_ne hi hj hne]
  · simp [readReg_of_ge (Nat.le_of_not_lt hj)]

theorem eq_with_x_of_writeReg (h : s.writeReg i v = .ok t) : t = { s with x := t.x } := by
  obtain ⟨_, rfl⟩ := writeReg_eq_ok_iff.1 h
  rfl

theorem exitStatus_of_halted (h : s.engine = .halted) : s.exitStatus = some 0 := by
  simp [exitStatus, h]

theorem exitStatus_of_faulted (h : s.engine = .faulted) : s.exitStatus = some Config.exitFault := by
  simp [exitStatus, h]

theorem exitStatus_of_ready (h : s.engine = .ready) : s.exitStatus = none := by
  simp [exitStatus, h]

theorem exitStatus_of_running (h : s.engine = .running) : s.exitStatus = none := by
  simp [exitStatus, h]

end Sys2Proof.Machine.State

namespace Sys2Proof.Proofs

/-- All that is known of the free `EXIT_FAULT` (decision D9). -/
theorem exitFault_ne_zero : Config.exitFault ≠ 0 := Nat.succ_ne_zero _

/-- Settles O2: a valid index makes the write answer a state, and each clause is a rule about a write that succeeds. -/
theorem registerWriteSetsOneRegister : Obligations.RegisterWriteSetsOneRegister := by
  intro s i v
  refine ⟨fun hi => ?_, State.writeReg_of_ge⟩
  have hw := State.writeReg_of_lt (s := s) (v := v) hi
  exact ⟨_, hw, State.readReg_writeReg_same hw, fun _ hj => State.readReg_writeReg_of_ne hw hj,
    State.eq_with_x_of_writeReg hw⟩

/-- Settles O28, by the four engine states; of the faulted status it uses only that it is not 0. -/
theorem exitStatusByEngineState : Obligations.ExitStatusByEngineState := by
  intro s
  refine ⟨State.exitStatus_of_halted, fun h => ?_, fun h => ?_⟩
  · exact ⟨_, State.exitStatus_of_faulted h, exitFault_ne_zero⟩
  · cases h with
    | inl h => exact State.exitStatus_of_ready h
    | inr h => exact State.exitStatus_of_running h

end Sys2Proof.Proofs
end

section
/-! SUPPORT. Rules for memory reads after writes and memory's frame under `exec`, and the statements of
spec/20_memory.md they settle. -/

open Sys2Proof Sys2Proof.Machine

namespace Sys2Proof.Machine.State

variable {s t : State} {addr b : Nat} {v : Byte}

/-- What a memory write that succeeds says: its address is in bounds, and only the memory is replaced. -/
theorem memWrite_eq_ok_iff :
    s.memWrite addr v = .ok t ↔ addr < 256 ∧ t = { s with mem := Memory.set s.mem addr v } := by
  by_cases h : addr < 256
  · simp [memWrite_of_lt h, h, eq_comm]
  · simp [memWrite_of_ge (Nat.le_of_not_lt h), h]

theorem memRead_memWrite_same (hs : Memory.wf s.mem) (h : s.memWrite addr v = .ok t) :
    t.memRead addr = .ok v := by
  obtain ⟨ha, rfl⟩ := memWrite_eq_ok_iff.1 h
  simp [memRead_of_lt ha, Memory.get_set hs]

theorem memRead_memWrite_of_ne (hs : Memory.wf s.mem) (h : s.memWrite addr v = .ok t) (hb : b ≠ addr) :
    t.memRead b = s.memRead b := by
  obtain ⟨-, rfl⟩ := memWrite_eq_ok_iff.1 h
  by_cases hlt : b < 256
  · simp [memRead_of_lt hlt, Memory.get_set hs, hb.symm]
  · simp [memRead_of_ge (Nat.le_of_not_lt hlt)]

theorem eq_with_mem_of_memWrite (h : s.memWrite addr v = .ok t) : t = { s with mem := t.mem } := by
  obtain ⟨-, rfl⟩ := memWrite_eq_ok_iff.1 h
  rfl

end Sys2Proof.Machine.State

namespace Sys2Proof.Machine

/-- R31: none of the effects of `exec`, the fault entry included, touches memory. -/
theorem exec_mem {i : Instr} {s t : State} (h : exec i s = .next t) : t.mem = s.mem := by
  rcases exec_cases i s with ⟨-, e⟩ | ⟨_, _, _, -, e⟩ | ⟨_, _, _, _, -, e⟩ | ⟨_, _, -, e⟩ | ⟨_, -, e⟩ <;>
    (rw [e] at h; cases h; rfl)

end Sys2Proof.Machine

namespace Sys2Proof.Proofs

/-- Settles O4: an address in bounds makes the write answer a state, each clause is a rule about a write that succeeds,
and the frame of `exec` says the rest. -/
theorem memWriteMutatesOneCell : Obligations.MemWriteMutatesOneCell := by
  refine ⟨fun s addr v hs => ⟨fun ha => ?_, State.memWrite_of_ge⟩, fun _ _ _ => exec_mem⟩
  have hw := State.memWrite_of_lt (s := s) (b := v) (Nat.lt_succ_of_le ha)
  exact ⟨_, hw, State.memRead_memWrite_same hs hw, fun _ hb => State.memRead_memWrite_of_ne hs hw hb,
    State.eq_with_mem_of_memWrite hw, State.memWrite_wf hs hw⟩

/-- Settles O3, by the two rules of a read: in bounds and out of bounds. -/
theorem memReadFailsExactlyAbove255 : Obligations.MemReadFailsExactlyAbove255 :=
  fun _ _ => ⟨fun ha => State.memRead_of_lt (Nat.lt_succ_of_le ha), State.memRead_of_ge⟩

end Sys2Proof.Proofs
end

section
/-! SUPPORT. Rules for an opcode byte outside the map, and the statement of spec/30_encoding.md they settle. -/

open Sys2Proof Sys2Proof.Machine

namespace Sys2Proof

variable {op : Byte}

/-- R58: the map has no row exactly for the bytes that are not one of the four opcodes. -/
theorem lookupOpcode_eq_none_iff :
    lookupOpcode op = none ↔ op ≠ 0x01 ∧ op ≠ 0x82 ∧ op ≠ 0xA2 ∧ op ≠ 0x47 := by
  rcases lookupOpcode_cases op with ⟨h, e⟩ | ⟨h, e⟩ | ⟨h, e⟩ | ⟨h, e⟩ | ⟨h1, h2, h3, h4, e⟩
  case inr.inr.inr.inr => exact iff_of_true e ⟨h1, h2, h3, h4⟩
  all_goals (rw [e]; simp [h])

/-- The operand bytes play no part in a rejection (R58, R73). -/
theorem decode_of_lookupOpcode_eq_none (h : lookupOpcode op = none) (a b : Byte) :
    decode op a b = .error (.unknownInstruction op) := by
  simp [decode, h]

/-- The numbers below `n` outside a set of such numbers: `n` less the size of the set. -/
theorem count_notMem_of_subset_range {t : Finset Nat} {n : Nat} (h : t ⊆ Finset.range n) :
    Nat.count (· ∉ t) n = n - t.card := by
  rw [Nat.count_eq_card_filter_range, Finset.filter_notMem_eq_sdiff, Finset.card_sdiff_of_subset h, Finset.card_range]

/-- R58: "252 values", the 256 bytes less the four opcodes. -/
theorem countP_lookupOpcode_isNone :
    (List.range 256).countP (fun n => (lookupOpcode (BitVec.ofNat 8 n)).isNone) = 252 := by
  have hcongr : ∀ n ∈ List.range 256, (lookupOpcode (BitVec.ofNat 8 n)).isNone = true ↔
      decide (n ∉ ({0x01, 0x82, 0xA2, 0x47} : Finset Nat)) = true := by
    intro n hn
    have hlt : n < 256 := List.mem_range.1 hn
    simp [lookupOpcode_eq_none_iff, BitVec.toNat_eq, Nat.mod_eq_of_lt hlt]
  rw [List.countP_congr hcongr]
  exact count_notMem_of_subset_range (by decide)

end Sys2Proof

namespace Sys2Proof.Machine

variable {s : State} {op : Byte}

/-- R58, R126: a step that fetches a byte without a row writes the latch, then takes the fault entry. -/
theorem step_of_lookupOpcode_eq_none (hr : s.engine = .running) (hp : s.pc.toNat ≤ 253)
    (hm : s.memRead s.pc.toNat = .ok op) (ho : lookupOpcode op = none) :
    ∃ a b, step s = .next ((s.latch ⟨op, a, b⟩).raise ⟨.unknownInstruction, op.toNat⟩) := by
  have hop : Memory.get s.mem s.pc.toNat = op := by
    rw [State.memRead_of_lt (Nat.lt_of_le_of_lt hp (by decide))] at hm
    exact Except.ok.inj hm
  refine ⟨Memory.get s.mem (s.pc.toNat + 1), Memory.get s.mem (s.pc.toNat + 2), ?_⟩
  rw [step_of_running hr, State.cycle, fetch_of_le hp, hop]
  simp only [decode_of_lookupOpcode_eq_none ho, decodeFault]

end Sys2Proof.Machine

namespace Sys2Proof.Proofs

/-- Settles O18: a byte outside the four has no row, so decode rejects it, and the step's whole effect is the latch and
the fault entry, which leave the other fields as they are. -/
theorem illegalOpcodeRaisesUnknownInstruction : Obligations.IllegalOpcodeRaisesUnknownInstruction := by
  refine ⟨countP_lookupOpcode_isNone, fun op h1 h2 h3 h4 => ?_⟩
  have ho : lookupOpcode op = none := lookupOpcode_eq_none_iff.2 ⟨h1, h2, h3, h4⟩
  refine ⟨decode_of_lookupOpcode_eq_none ho, fun s hr hp hm => ?_⟩
  obtain ⟨a, b, hstep⟩ := step_of_lookupOpcode_eq_none hr hp hm ho
  exact ⟨_, hstep, State.raise_engine _ _, State.raise_fault _ _, rfl, rfl, rfl, rfl, _,
    State.exitStatus_of_faulted (State.raise_engine _ _), exitFault_ne_zero⟩

end Sys2Proof.Proofs
end

section
/-! SUPPORT. Rules for the bytes of an instruction at the program counter, the frame of `exec` towards memory and latch,
and the statement of spec/40_fetch_decode_dispatch.md they settle. -/

open Sys2Proof Sys2Proof.Machine

namespace Sys2Proof

variable {op : Byte} {w : Nat}

/-- R54, R55: the opcode bytes that have a width, each with its own. -/
theorem opcode_width_cases (h : widthOfOpcode op = some w) :
    (op = 0x01 ∧ w = 1) ∨ (op = 0x82 ∧ w = 3) ∨ (op = 0xA2 ∧ w = 3) ∨ (op = 0x47 ∧ w = 2) := by
  rcases lookupOpcode_cases op with ⟨ho, e⟩ | ⟨ho, e⟩ | ⟨ho, e⟩ | ⟨ho, e⟩ | ⟨-, -, -, -, e⟩ <;>
    rw [widthOfOpcode, e] at h <;> cases h
  · exact .inl ⟨ho, rfl⟩
  · exact .inr (.inl ⟨ho, rfl⟩)
  · exact .inr (.inr (.inl ⟨ho, rfl⟩))
  · exact .inr (.inr (.inr ⟨ho, rfl⟩))

/-- R76: byte sequences that agree as far as the width of the first one's opcode decode to the same instruction. -/
theorem decode_same_of_eq_below_width {f g : Nat → Byte} (hw : widthOfOpcode (f 0) = some w)
    (h : ∀ k < w, g k = f k) :
    ∃ i, decode (f 0) (f 1) (f 2) = .ok i ∧ decode (g 0) (g 1) (g 2) = .ok i := by
  rcases opcode_width_cases hw with ⟨ho, rfl⟩ | ⟨ho, rfl⟩ | ⟨ho, rfl⟩ | ⟨ho, rfl⟩
  · rw [h 0 (by decide), ho]
    exact ⟨_, decode_hlt _ _, decode_hlt _ _⟩
  · rw [h 0 (by decide), h 1 (by decide), h 2 (by decide), ho]
    exact ⟨_, decode_ldi _ _, decode_ldi _ _⟩
  · rw [h 0 (by decide), h 1 (by decide), h 2 (by decide), ho]
    exact ⟨_, decode_mul _ _, decode_mul _ _⟩
  · rw [h 0 (by decide), h 1 (by decide), ho]
    exact ⟨_, decode_prn _ _, decode_prn _ _⟩

end Sys2Proof

namespace Sys2Proof.Machine

variable {s t : State} {i : Instr} {k : Nat}

/-- The byte `k` cells after the program counter. -/
def State.byteFromPc (s : State) (k : Nat) : Byte := Memory.get s.mem (s.pc.toNat + k)

theorem memRead_pc_add (h : s.pc.toNat + k < 256) : s.memRead (s.pc.toNat + k) = .ok (s.byteFromPc k) :=
  State.memRead_of_lt h

theorem step_of_decode (hr : s.engine = .running) (hp : s.pc.toNat ≤ 253)
    (hd : decode (s.byteFromPc 0) (s.byteFromPc 1) (s.byteFromPc 2) = .ok i) :
    step s = exec i (s.latch ⟨s.byteFromPc 0, s.byteFromPc 1, s.byteFromPc 2⟩) := by
  have hf : s.fetch = .ok ⟨s.byteFromPc 0, s.byteFromPc 1, s.byteFromPc 2⟩ := fetch_of_le hp
  rw [step_of_running hr, State.cycle, hf]
  simp only [hd]

/-- No handler reads memory or the latch (R74, R76): another memory and latch pass through `exec`, which does the same to
the rest of the state, the fault entry included. -/
theorem exec_with_mem_ir (h : exec i s = .next t) (m : List Host.Cell) (l : Latch) :
    exec i { s with mem := m, ir := l } = .next { t with mem := m, ir := l } := by
  cases i with
  | hlt =>
    cases h.symm.trans (execHlt_eq s)
    exact execHlt_eq _
  | ldi a b =>
    by_cases ha : a.toNat < 8
    · cases h.symm.trans (execLdi_of_lt ha)
      exact execLdi_of_lt ha
    · cases h.symm.trans (execLdi_of_ge (Nat.le_of_not_lt ha))
      exact execLdi_of_ge (Nat.le_of_not_lt ha)
  | mul a b =>
    by_cases ha : a.toNat < 8
    · by_cases hb : b.toNat < 8
      · cases h.symm.trans (execMul_of_lt ha hb)
        exact execMul_of_lt ha hb
      · cases h.symm.trans (execMul_of_ge_right ha (Nat.le_of_not_lt hb))
        exact execMul_of_ge_right ha (Nat.le_of_not_lt hb)
    · cases h.symm.trans (execMul_of_ge_left (Nat.le_of_not_lt ha))
      exact execMul_of_ge_left (Nat.le_of_not_lt ha)
  | prn a =>
    by_cases ha : a.toNat < 8
    · cases h.symm.trans (execPrn_of_lt ha)
      exact execPrn_of_lt ha
    · cases h.symm.trans (execPrn_of_ge (Nat.le_of_not_lt ha))
      exact execPrn_of_ge (Nat.le_of_not_lt ha)

end Sys2Proof.Machine

namespace Sys2Proof.Proofs

/-- Settles O23: bytes that agree as far as the width decode to one instruction, so both steps run one handler, and a
handler reads neither the memory nor the latch in which the two states differ. -/
theorem bytesBeyondTheWidthNeverMatter : Obligations.BytesBeyondTheWidthNeverMatter := by
  intro s u t op w hr hu hp hop hw hagree hst
  obtain ⟨m, rfl⟩ : ∃ m, u = { s with mem := m } := ⟨_, hu⟩
  have hop0 : op = s.byteFromPc 0 := Except.ok.inj (hop.symm.trans (memRead_pc_add (k := 0) (by omega)))
  have hbytes : ∀ k < w, State.byteFromPc { s with mem := m } k = s.byteFromPc k := by
    intro k hk
    have hw3 : w ≤ 3 := by rcases opcode_width_cases hw with h | h | h | h <;> omega
    have hlt : s.pc.toNat + k < 256 := by omega
    have hread := hagree k hk
    rw [memRead_pc_add hlt, memRead_pc_add (s := { s with mem := m }) hlt] at hread
    exact Except.ok.inj hread
  obtain ⟨i, hs, hu⟩ := decode_same_of_eq_below_width (hop0 ▸ hw) hbytes
  rw [step_of_decode hr hp hs] at hst
  exact ⟨_, (step_of_decode (s := { s with mem := m }) hr hp hu).trans (exec_with_mem_ir hst m _), rfl⟩

end Sys2Proof.Proofs
end

section
/-! SUPPORT. Rules for a step whose three reads succeed and for a step whose fetch faults, and the statement of
spec/41_hlt.md they settle. -/

open Sys2Proof Sys2Proof.Machine

namespace Sys2Proof.Machine

variable {s : State} {op a b : Byte} {i : Instr}

/-- R71: three reads that succeed make the fetch answer their bytes. -/
theorem fetch_of_memRead (h0 : s.memRead s.pc.toNat = .ok op) (h1 : s.memRead (s.pc.toNat + 1) = .ok a)
    (h2 : s.memRead (s.pc.toNat + 2) = .ok b) : s.fetch = .ok ⟨op, a, b⟩ := by
  simp only [State.fetch, h0, h1, h2]

/-- R70: a fetched instruction is executed on the state with the latch written. -/
theorem step_of_fetch_decode (hr : s.engine = .running) (hf : s.fetch = .ok ⟨op, a, b⟩)
    (hd : decode op a b = .ok i) : step s = exec i (s.latch ⟨op, a, b⟩) := by
  rw [step_of_running hr, State.cycle, hf]
  simp only [hd]

/-- R71: a window that leaves memory makes the step take the fault entry, before the latch is written; up to pc 256 the
first address above 255 is 256. -/
theorem step_of_fetch_fault (hr : s.engine = .running) (hp : 254 ≤ s.pc.toNat) (hp' : s.pc.toNat ≤ 256) :
    step s = .next (s.raise ⟨.outOfBounds, 256⟩) := by
  rw [step_of_running hr, State.cycle, fetch_of_gt hp, Nat.max_eq_left hp']

end Sys2Proof.Machine

namespace Sys2Proof.Proofs

/-- Settles O19: byte 01 decodes to HLT whatever follows it, and HLT's handler sets the engine and advances pc by 1; past
pc 253 the fetch faults and no handler runs. -/
theorem hltStep : Obligations.HltStep := by
  refine ⟨rfl, fun s b1 b2 hr => ⟨fun h0 h1 h2 => ?_, step_of_fetch_fault hr⟩⟩
  calc step s
    _ = exec .hlt (s.latch ⟨0x01, b1, b2⟩) := step_of_fetch_decode hr (fetch_of_memRead h0 h1 h2) (decode_hlt b1 b2)
    _ = .next (((s.latch ⟨0x01, b1, b2⟩).setEngine .halted).advancePc 1) := execHlt_eq _

end Sys2Proof.Proofs
end

section
/-! SUPPORT. Rules for a step that fetches the bytes of LDI, and the statements of spec/42_ldi.md they settle. -/

open Sys2Proof Sys2Proof.Machine

namespace Sys2Proof.Machine

variable {s : State} {a b i : Byte}

/-- R15: advancing `pc` leaves every register read as it was. -/
@[simp] theorem State.readReg_advancePc (w : Nat) : (s.advancePc w).readReg i = s.readReg i := rfl

/-- R95: a running engine that fetches `82 a b` executes LDI a, b on the state with these bytes latched. -/
theorem step_of_memRead_ldi (hr : s.engine = .running) (h0 : s.memRead s.pc.toNat = .ok 0x82)
    (h1 : s.memRead (s.pc.toNat + 1) = .ok a) (h2 : s.memRead (s.pc.toNat + 2) = .ok b) :
    step s = execLdi a b (s.latch ⟨0x82, a, b⟩) :=
  step_of_fetch_decode hr (fetch_of_memRead h0 h1 h2) (decode_ldi a b)

end Sys2Proof.Machine

namespace Sys2Proof.Proofs

/-- Settles O20: the step is LDI's handler on the latched state, which writes the register and advances pc by 3, or takes
the fault entry for an index above 7; past pc 253 the fetch faults and no handler runs. -/
theorem ldiStep : Obligations.LdiStep := by
  refine fun a b => ⟨rfl, fun s hr => ⟨fun h0 h1 h2 => ?_, step_of_fetch_fault hr⟩⟩
  have hstep := step_of_memRead_ldi hr h0 h1 h2
  exact ⟨fun ha => hstep.trans (execLdi_of_lt ha), fun ha => hstep.trans (execLdi_of_ge ha)⟩

/-- Settles O9: for a valid index the handler is a register write that succeeds, then the advance of pc, which no
register read sees. -/
theorem ldiThenReadYieldsTheByte : Obligations.LdiThenReadYieldsTheByte := by
  intro s i v hi
  have hread : State.readReg { s with x := s.x.set i.toNat v } i = .ok v :=
    State.readReg_writeReg_same (State.writeReg_of_lt hi)
  exact ⟨_, execLdi_of_lt hi, (State.readReg_advancePc 3).trans hread, rfl⟩

end Sys2Proof.Proofs
end

section
/-! SUPPORT. The rule for a step that fetches the bytes of MUL, and the statements of spec/43_alu_mul.md it and the laws of
the ALU settle. -/

open Sys2Proof Sys2Proof.Machine

namespace Sys2Proof.Machine

variable {s : State} {a b : Byte}

/-- R103: a running engine that fetches `A2 a b` executes MUL a, b on the state with these bytes latched. -/
theorem step_of_memRead_mul (hr : s.engine = .running) (h0 : s.memRead s.pc.toNat = .ok 0xA2)
    (h1 : s.memRead (s.pc.toNat + 1) = .ok a) (h2 : s.memRead (s.pc.toNat + 2) = .ok b) :
    step s = execMul a b (s.latch ⟨0xA2, a, b⟩) :=
  step_of_fetch_decode hr (fetch_of_memRead h0 h1 h2) (decode_mul a b)

end Sys2Proof.Machine

namespace Sys2Proof.Proofs

/-- Settles O21: the step is MUL's handler on the latched state, which writes the product of the old values and advances pc
by 3, or takes the fault entry for the first of the two indices above 7; past pc 253 the fetch faults and no handler
runs. -/
theorem mulStep : Obligations.MulStep := by
  refine fun a b => ⟨rfl, fun s hr => ⟨fun h0 h1 h2 => ?_, step_of_fetch_fault hr⟩⟩
  have hstep := step_of_memRead_mul hr h0 h1 h2
  refine ⟨fun ha hb => ?_, fun ha => ?_, fun ha hb => ?_⟩
  · exact ⟨s.x[a.toNat] * s.x[b.toNat], BitVec.toNat_mul _ _, hstep.trans (execMul_of_lt ha hb)⟩
  · exact hstep.trans (execMul_of_ge_left ha)
  · exact hstep.trans (execMul_of_ge_right ha hb)

/-- Settles O5, by the tag: the word sum, the word product (both reduced modulo 2^8, R101), or the raise. -/
theorem aluComputesByTag : Obligations.AluComputesByTag := by
  refine fun op p q => ⟨?add, ?mul, fun h0 h1 => alu_of_ne h0 h1 p q⟩
  case add =>
    rintro rfl
    exact ⟨p + q, alu_add p q, BitVec.toNat_add p q⟩
  case mul =>
    rintro rfl
    exact ⟨p * q, alu_mul p q, BitVec.toNat_mul p q⟩

/-- Settles O10: for valid indices the handler writes the word product, which is the product modulo 2^8. -/
theorem mulSetsTheWrappedProduct : Obligations.MulSetsTheWrappedProduct := by
  refine ⟨fun s a b ha hb => ?_, alu_mul 200 200, alu_add 200 200⟩
  exact ⟨s.x[a.toNat] * s.x[b.toNat], BitVec.toNat_mul _ _, execMul_of_lt ha hb⟩

end Sys2Proof.Proofs
end

section
/-! SUPPORT. The rule for a step that fetches the bytes of PRN, and the statement of spec/44_prn.md it settles. -/

open Sys2Proof Sys2Proof.Machine

namespace Sys2Proof.Machine

variable {s : State} {a b : Byte}

/-- R110: a running engine that fetches `47 a` executes PRN a on the state with these bytes, and the byte `b` after them,
latched. -/
theorem step_of_memRead_prn (hr : s.engine = .running) (h0 : s.memRead s.pc.toNat = .ok 0x47)
    (h1 : s.memRead (s.pc.toNat + 1) = .ok a) (h2 : s.memRead (s.pc.toNat + 2) = .ok b) :
    step s = execPrn a (s.latch ⟨0x47, a, b⟩) :=
  step_of_fetch_decode hr (fetch_of_memRead h0 h1 h2) (decode_prn a b)

end Sys2Proof.Machine

namespace Sys2Proof.Proofs

/-- Settles O22: the step is PRN's handler on the latched state, which appends the register to the output log and advances
pc by 2, or takes the fault entry for an index above 7; past pc 253 the fetch faults and no handler runs. -/
theorem prnStep : Obligations.PrnStep := by
  refine fun a => ⟨rfl, fun s b hr => ⟨fun h0 h1 h2 => ?_, step_of_fetch_fault hr⟩⟩
  have hstep := step_of_memRead_prn hr h0 h1 h2
  exact ⟨fun ha => hstep.trans (execPrn_of_lt ha), fun ha => hstep.trans (execPrn_of_ge ha)⟩

end Sys2Proof.Proofs
end

section
/-! SUPPORT. The fault entry of the ALU's tag check and the causes a step can record, and the statement of
spec/60_exceptions.md they settle. -/

open Sys2Proof Sys2Proof.Machine

namespace Sys2Proof.Machine

variable {s t : State}

/-- R126: a handler whose effect raised ends in the fault entry on the state it began with. -/
@[simp] theorem State.finish_error (s : State) (r : FaultRecord) : s.finish (.error r) = .next (s.raise r) := rfl

/-- R105: the tag check comes before any register is read, so an unsupported tag raises whatever the two index bytes. -/
theorem aluApply_of_ne {op : AluOp} (h0 : op ≠ AluOp.add) (h1 : op ≠ AluOp.mul) (a b : Byte) :
    s.aluApply op a b = .error ⟨.unsupportedOperation, op.toNat⟩ := by
  rw [State.aluApply, aluTagCheck_of_ne h0 h1]

/-- R120: a step leaves the fault record alone, or records the fault of the fetch, of a register index or of decode. -/
theorem fault_cases_of_step (h : step s = .next t) :
    t.fault = s.fault ∨ ∃ r, t.fault = some r ∧
      (r.cause = .outOfBounds ∨ r.cause = .invalidRegister ∨ r.cause = .unknownInstruction) := by
  obtain ⟨-, ⟨-, rfl⟩ | ⟨-, op, a, b, -, -, -, -, effect⟩⟩ := step_next_cases h
  · exact .inr ⟨_, State.raise_fault _ _, .inl rfl⟩
  rcases effect with ⟨-, rfl⟩ | ⟨_, -, rfl⟩ | ⟨_, _, -, rfl⟩ | ⟨_, -, rfl⟩ | ⟨k, -, -, rfl⟩ | ⟨-, rfl⟩
  -- the four completed effects leave the record alone; a register index or decode may raise
  iterate 4 exact .inl rfl
  · exact .inr ⟨_, State.raise_fault _ _, .inr (.inl rfl)⟩
  · exact .inr ⟨_, State.raise_fault _ _, .inr (.inr rfl)⟩

end Sys2Proof.Machine

namespace Sys2Proof.Proofs

/-- Settles O7: the ALU and the tag check before it both raise for any other tag, and the causes a step can record are the
three others, since the only handler that calls the ALU gives it MUL's tag. -/
theorem unsupportedOperationNeverRaisedByAStep : Obligations.UnsupportedOperationNeverRaisedByAStep := by
  refine ⟨fun op p q h0 h1 => alu_of_ne h0 h1 p q, fun s op a b h0 h1 => ?fatal, fun s t h => ?causes⟩
  case fatal => rw [aluApply_of_ne h0 h1, State.finish_error, State.raise]
  case causes =>
    refine (fault_cases_of_step h).imp_right fun ⟨r, hr, hc⟩ => ⟨r, hr, ?_⟩
    rcases hc with hc | hc | hc <;> simp [hc]

end Sys2Proof.Proofs
end

section
/-! SUPPORT. How far each handler advances the program counter, and the statement of spec/70_reset_and_hazards.md this and
the opcode map settle. -/

open Sys2Proof Sys2Proof.Machine

namespace Sys2Proof.Machine

variable {i : Instr} {s t : State}

/-- R15: a handler that completes advances `pc` by the width of its instruction; the only other effect of `exec` is the
fault entry. -/
theorem exec_pc (h : exec i s = .next t) (ht : t.engine ≠ .faulted) : t.pc = s.pc + BitVec.ofNat 9 i.width := by
  rcases exec_cases i s with ⟨rfl, e⟩ | ⟨_, _, _, rfl, e⟩ | ⟨_, _, _, _, rfl, e⟩ | ⟨_, _, rfl, e⟩ | ⟨_, -, e⟩ <;>
    cases h.symm.trans e
  case inr.inr.inr.inr => exact absurd (State.raise_engine _ _) ht
  all_goals exact State.advancePc_pc _ _

end Sys2Proof.Machine

namespace Sys2Proof.Proofs

/-- R50, R54, R55, for every instruction: its encoding begins with its opcode byte, whose row has the instruction's
width. -/
theorem opcodeMap_statement (i : Instr) : Laws.OpcodeMap.Statement i := by
  cases i with
  | hlt => exact Laws.OpcodeMap.hlt
  | ldi a b => exact Laws.OpcodeMap.ldi a b
  | mul a b => exact Laws.OpcodeMap.mul a b
  | prn a => exact Laws.OpcodeMap.prn a

/-- Settles O14: the map's row for the first byte of the encoding has the width of the instruction, and that is how far a
handler that completes advances pc. -/
theorem handlerAdvanceIsRowWidth : Obligations.HandlerAdvanceIsRowWidth := by
  intro i s t h ht
  obtain ⟨hwidth, -, hhead, -⟩ := opcodeMap_statement i
  obtain ⟨rest, hencode⟩ := List.head?_eq_some_iff.1 hhead
  exact ⟨i.width, i.opcode, rest, hencode, hwidth, exec_pc h ht⟩

end Sys2Proof.Proofs
end

section
/-! SUPPORT. What HostWrite answers in `Ready`, and the statement of spec/80_blocks_and_interfaces.md it settles. -/

open Sys2Proof Sys2Proof.Machine

namespace Sys2Proof.Machine

variable {s t : State} {addr : Nat} {v : Byte} {r : FaultRecord}

/-- R175: in `Ready` an operation of the host has its effect. -/
theorem inReady_of_ready (hr : s.engine = .ready) (effect : Host.Outcome State Fault Refusal) :
    inReady s effect = effect := if_pos hr

/-- R176: in `Ready`, HostWrite answers the state of a memory write that succeeds. -/
theorem hostWrite_of_memWrite_ok (hr : s.engine = .ready) (hw : s.memWrite addr v = .ok t) :
    hostWrite addr v s = .next t := by
  rw [hostWrite, inReady_of_ready hr, hw, State.finish]

/-- R176: in `Ready`, HostWrite takes the fault entry for a memory write that raises. -/
theorem hostWrite_of_memWrite_error (hr : s.engine = .ready) (hw : s.memWrite addr v = .error r) :
    hostWrite addr v s = .next (s.raise r) := by
  rw [hostWrite, inReady_of_ready hr, hw, State.finish_error]

end Sys2Proof.Machine

namespace Sys2Proof.Proofs

/-- Settles O36: in bounds HostWrite answers the state of a memory write that succeeds, of which each clause is a rule; out
of bounds the write raises, and HostWrite takes the fault entry. -/
theorem hostWriteTouchesOneCell : Obligations.HostWriteTouchesOneCell := by
  refine fun s addr v hr hs => ⟨fun ha => ?inBounds, fun ha => ?outOfBounds⟩
  case inBounds =>
    have hw := State.memWrite_of_lt (s := s) (b := v) (Nat.lt_succ_of_le ha)
    exact ⟨_, hostWrite_of_memWrite_ok hr hw, State.memRead_memWrite_same hs hw,
      fun _ hb => State.memRead_memWrite_of_ne hs hw hb, State.eq_with_mem_of_memWrite hw⟩
  case outOfBounds => exact hostWrite_of_memWrite_error hr (State.memWrite_of_ge ha)

end Sys2Proof.Proofs
end

section
/-! SUPPORT. What decoding says about the encoding of its answer, and the statements of spec/30_encoding.md this
settles. -/

open Sys2Proof Sys2Proof.Machine

namespace Sys2Proof

variable {i : Instr} {rest bytes : List Byte}

/-- R50, R55: an encoding is read back, and exactly its own bytes are consumed. -/
theorem decodeBytes_encode_append (i : Instr) (rest : List Byte) : decodeBytes (encode i ++ rest) = .ok (i, rest) := by
  cases i with
  | hlt => rfl
  | ldi a b => rfl
  | mul a b => rfl
  | prn a => rfl

/-- R50, R60: the bytes an instruction was read from are its encoding, then the bytes left over. -/
theorem eq_encode_append_of_decodeBytes (h : decodeBytes bytes = .ok (i, rest)) : bytes = encode i ++ rest := by
  cases bytes with
  | nil => simp [decodeBytes] at h
  | cons op tail =>
    rcases lookupOpcode_cases op with ⟨rfl, e⟩ | ⟨rfl, e⟩ | ⟨rfl, e⟩ | ⟨rfl, e⟩ | ⟨-, -, -, -, e⟩ <;>
      simp only [decodeBytes, e] at h
    case inr.inr.inr.inr => cases h
    case inl => cases h; rfl
    case inr.inr.inr.inl =>
      match tail, h with
      | a :: _, h => cases h; rfl
    all_goals
      match tail, h with
      | a :: b :: _, h => cases h; rfl

theorem decodeBytes_eq_ok_iff : decodeBytes bytes = .ok (i, rest) ↔ bytes = encode i ++ rest :=
  ⟨eq_encode_append_of_decodeBytes, fun h => h ▸ decodeBytes_encode_append i rest⟩

theorem disassembleFrom_nil (fuel : Nat) : disassembleFrom fuel [] = .ok [] := by
  cases fuel <;> rfl

/-- R60: what a walk that ends well has read is the assembly of its answer. -/
theorem eq_assemble_of_disassembleFrom (fuel : Nat) :
    ∀ {bytes is}, disassembleFrom fuel bytes = .ok is → bytes = assemble is := by
  induction fuel with
  | zero =>
    intro bytes is h
    cases bytes with
    | nil => cases h; rfl
    | cons => cases h
  | succ fuel ih =>
    intro bytes is h
    cases bytes with
    | nil => cases h; rfl
    | cons op tail =>
      cases hd : decodeBytes (op :: tail) with
      | error e => simp [disassembleFrom, hd] at h
      | ok p =>
        obtain ⟨i, rest⟩ := p
        cases hr : disassembleFrom fuel rest with
        | error e => simp [disassembleFrom, hd, hr] at h
        | ok js =>
          obtain rfl : i :: js = is := by simpa [disassembleFrom, hd, hr] using h
          rw [eq_encode_append_of_decodeBytes hd, ih hr, assemble]

/-- One turn of the walk over an encoding (R60). -/
theorem disassembleFrom_encode_append {fuel : Nat} {is : List Instr} (h : disassembleFrom fuel rest = .ok is) :
    disassembleFrom (fuel + 1) (encode i ++ rest) = .ok (i :: is) := by
  obtain ⟨op, tail, hcons⟩ := List.exists_cons_of_ne_nil (List.append_ne_nil_of_left_ne_nil (encode_ne_nil i) rest)
  have hd := decodeBytes_encode_append i rest
  rw [hcons] at hd ⊢
  simp [disassembleFrom, hd, h]

/-- R60: with a turn for each byte the walk over an assembly reaches its end, since no encoding is empty. -/
theorem disassembleFrom_assemble (is : List Instr) :
    ∀ {fuel}, (assemble is).length ≤ fuel → disassembleFrom fuel (assemble is) = .ok is := by
  induction is with
  | nil => exact fun {fuel} _ => disassembleFrom_nil fuel
  | cons i is ih =>
    intro fuel hfuel
    have hpos : 0 < (encode i).length := List.length_pos_of_ne_nil (encode_ne_nil i)
    rw [assemble, List.length_append] at hfuel
    obtain ⟨n, rfl⟩ : ∃ n, fuel = n + 1 := ⟨fuel - 1, by omega⟩
    exact disassembleFrom_encode_append (ih (by omega))

end Sys2Proof

namespace Sys2Proof.Proofs

/-- Settles O44: the walk reads encodings only, one after another, and has a turn for every byte. -/
theorem disassembleInvertsAssemble : Obligations.DisassembleInvertsAssemble := by
  refine fun is bytes => ⟨eq_assemble_of_disassembleFrom _, ?_⟩
  rintro rfl
  exact disassembleFrom_assemble is le_rfl

/-- Settles O43: the first clause for every instruction and every rest; the second by the instruction, whose opcode byte
and operands are what decode takes from the three bytes. -/
theorem decodeAndEncodeAgree : Obligations.DecodeAndEncodeAgree := by
  refine ⟨decodeBytes_encode_append, fun i op a b => ⟨fun h => ?decoded, fun h => ?encoded⟩⟩
  case decoded =>
    rcases decode_cases op a b with ⟨rfl, e⟩ | ⟨rfl, e⟩ | ⟨rfl, e⟩ | ⟨rfl, e⟩ | ⟨-, -, -, -, e⟩ <;>
      cases h.symm.trans e <;> simp [encode]
  case encoded =>
    cases i with
    | hlt =>
      obtain rfl : 0x01 = op := by simpa [encode] using h
      exact decode_hlt a b
    | ldi a' b' =>
      obtain ⟨rfl, rfl, rfl⟩ : 0x82 = op ∧ a' = a ∧ b' = b := by simpa [encode] using h
      exact decode_ldi a' b'
    | mul a' b' =>
      obtain ⟨rfl, rfl, rfl⟩ : 0xA2 = op ∧ a' = a ∧ b' = b := by simpa [encode] using h
      exact decode_mul a' b'
    | prn a' =>
      obtain ⟨rfl, rfl⟩ : 0x47 = op ∧ a' = a := by simpa [encode] using h
      exact decode_prn a' b

/-- Settles O45, word by word: each is a fixed number whose bytes decode looks up in the map. -/
theorem writtenOutWordsDecode : Obligations.WrittenOutWordsDecode :=
  ⟨by decide, by decide, by decide, by decide, by decide, by decide⟩

end Sys2Proof.Proofs
end

section
/-! SUPPORT. The statements of spec/10_state.md and spec/43_alu_mul.md about the register read and the ALU's laws. -/

open Sys2Proof Sys2Proof.Machine

namespace Sys2Proof.Machine

/-- R107: exchanging the values leaves the ALU's answer, whatever the tag: sum and product commute, and the raise does not
look at them. -/
theorem alu_comm (op : AluOp) (p q : RegWord) : alu op p q = alu op q p := by
  simp only [alu, Nat.add_comm p.toNat, Nat.mul_comm p.toNat]

end Sys2Proof.Machine

namespace Sys2Proof.Proofs

/-- Settles O1, by the two rules of a register read: a valid index and any other. -/
theorem registerReadChecksWholeIndex : Obligations.RegisterReadChecksWholeIndex :=
  fun _ _ => ⟨State.readReg_of_lt, State.readReg_of_ge⟩

/-- Settles O6: apart from commutativity, the laws of 0 and 1 of the words the two tags compute. -/
theorem aluLawsOfZeroOneAndOrder : Obligations.AluLawsOfZeroOneAndOrder := by
  refine fun op p q => ⟨alu_comm op p q, ?_, ?_, ?_⟩
  · rw [alu_mul, mul_zero]
  · rw [alu_add, add_zero]
  · rw [alu_mul, mul_one]

end Sys2Proof.Proofs
end

section
/-! SUPPORT. The effects of `exec` by kind of instruction, and the statements about what each instruction does and leaves
unchanged (spec/41_hlt.md, spec/42_ldi.md, spec/43_alu_mul.md, spec/44_prn.md). -/

open Sys2Proof Sys2Proof.Machine

namespace Sys2Proof.Machine

variable {s t : State} {i : Instr} {a b : Byte}

/-- R32: what memory holds is all that a read of it sees. -/
theorem State.memRead_congr (h : t.mem = s.mem) (addr : Nat) : t.memRead addr = s.memRead addr := by
  rw [State.memRead, State.memRead, h]

/-- R95, R103: LDI and MUL write the register of their first operand and advance by 3, or, when an index is above 7, take
the fault entry. -/
theorem exec_registerWriter_cases (hi : i = .ldi a b ∨ i = .mul a b) (h : exec i s = .next t) :
    (i.wellFormed = true ∧ ∃ (ha : a.toNat < 8) (v : RegWord), t = State.advancePc { s with x := s.x.set a.toNat v } 3) ∨
    (i.wellFormed = false ∧ ∃ k, t = s.raise ⟨.invalidRegister, k⟩) := by
  rcases hi with rfl | rfl
  · by_cases ha : a.toNat < 8
    · cases h.symm.trans (execLdi_of_lt ha)
      exact .inl ⟨(validIndex_iff a).2 ha, ha, _, rfl⟩
    · have ha := Nat.le_of_not_lt ha
      cases h.symm.trans (execLdi_of_ge ha)
      exact .inr ⟨(validIndex_eq_false_iff a).2 ha, _, rfl⟩
  · by_cases ha : a.toNat < 8
    · by_cases hb : b.toNat < 8
      · cases h.symm.trans (execMul_of_lt ha hb)
        exact .inl ⟨by simp [Instr.wellFormed, ha, hb], ha, _, rfl⟩
      · have hb := Nat.le_of_not_lt hb
        cases h.symm.trans (execMul_of_ge_right ha hb)
        exact .inr ⟨by simp [Instr.wellFormed, hb], _, rfl⟩
    · have ha := Nat.le_of_not_lt ha
      cases h.symm.trans (execMul_of_ge_left ha)
      exact .inr ⟨by simp [Instr.wellFormed, ha], _, rfl⟩

/-- R110: PRN emits the register of its operand and advances by 2, or, for an index above 7, takes the fault entry. -/
theorem exec_prn_cases (h : exec (.prn a) s = .next t) :
    ((Instr.prn a).wellFormed = true ∧ ∃ v, t = (s.emit v).advancePc 2) ∨
    ((Instr.prn a).wellFormed = false ∧ t = s.raise ⟨.invalidRegister, a.toNat⟩) := by
  by_cases ha : a.toNat < 8
  · cases h.symm.trans (execPrn_of_lt ha)
    exact .inl ⟨(validIndex_iff a).2 ha, _, rfl⟩
  · have ha := Nat.le_of_not_lt ha
    cases h.symm.trans (execPrn_of_ge ha)
    exact .inr ⟨(validIndex_eq_false_iff a).2 ha, rfl⟩

end Sys2Proof.Machine

namespace Sys2Proof.Proofs

/-- Settles O8: the handler's effect, written as a record. -/
theorem hltCompletes : Obligations.HltCompletes := execHlt_eq

/-- Settles O11: the handler's effect for a valid index, written as a record. -/
theorem prnCompletes : Obligations.PrnCompletes := fun _ _ ha => execPrn_of_lt ha

/-- Settles O12: memory, output and latch stay in both of the effects these handlers have; the write touches one
register, the fault entry engine and record only. -/
theorem registerWritersFrame : Obligations.RegisterWritersFrame := by
  intro s t i a b hi h
  have hmem := exec_mem h
  rcases exec_registerWriter_cases hi h with ⟨hwf, ha, v, rfl⟩ | ⟨hwf, k, rfl⟩
  · refine ⟨fun j hj => Vector.getElem_set_ne ha j.isLt (Ne.symm hj), State.memRead_congr hmem, hmem, rfl, rfl,
      fun _ => ⟨rfl, rfl⟩, fun hill => ?_⟩
    exact absurd (hwf.symm.trans hill) (by decide)
  · refine ⟨fun _ _ => rfl, State.memRead_congr hmem, hmem, rfl, rfl, fun hok => ?_,
      fun _ => ⟨rfl, rfl, State.raise_engine _ _, k, State.raise_fault _ _⟩⟩
    exact absurd (hok.symm.trans hwf) (by decide)

/-- Settles O13: by the one effect of HLT and the two of PRN, none of which writes a register, memory or the latch. -/
theorem hltAndPrnFrame : Obligations.HltAndPrnFrame := by
  intro s t i a hi h
  have hmem := exec_mem h
  rcases hi with rfl | rfl
  · cases h.symm.trans (execHlt_eq s)
    exact ⟨rfl, State.memRead_congr hmem, hmem, rfl, fun _ => ⟨rfl, rfl⟩, nofun, nofun⟩
  · rcases exec_prn_cases h with ⟨hwf, v, rfl⟩ | ⟨hwf, rfl⟩
    · refine ⟨rfl, State.memRead_congr hmem, hmem, rfl, nofun, fun _ _ => ⟨rfl, rfl⟩, fun _ hill => ?_⟩
      exact absurd (hwf.symm.trans hill) (by decide)
    · refine ⟨rfl, State.memRead_congr hmem, hmem, rfl, nofun, fun _ hok => ?_,
        fun _ _ => ⟨rfl, rfl, State.raise_engine _ _, State.raise_fault _ _⟩⟩
      exact absurd (hok.symm.trans hwf) (by decide)

/-- Settles O27: the state HLT leaves is Halted, in which no step exists and the exit status is 0. -/
theorem afterHltNoStepExists : Obligations.AfterHltNoStepExists := by
  intro s t h
  cases h.symm.trans (execHlt_eq s)
  exact ⟨step_of_not_running nofun, State.advancePc_pc _ _, State.exitStatus_of_halted rfl⟩

end Sys2Proof.Proofs
end

section
/-! SUPPORT. What one step of a running engine can be: a fault entry, or an effect that completes; and the statements about
every step this settles (spec/10_state.md, spec/40_fetch_decode_dispatch.md, spec/60_exceptions.md). -/

open Sys2Proof Sys2Proof.Machine

namespace Sys2Proof.Machine

variable {s t : State} {op a b : Byte} {w : Nat}

/-- R120: the record of an index byte above 7 is one its cause can report. -/
theorem reportable_invalidRegister (h : 8 ≤ a.toNat) : FaultRecord.Reportable ⟨.invalidRegister, a.toNat⟩ :=
  ⟨h, Nat.le_of_lt_succ a.isLt⟩

/-- R120: so is the record of an opcode byte outside the map. -/
theorem reportable_unknownInstruction (h : op ∉ [0x01, 0x82, 0xA2, 0x47]) :
    FaultRecord.Reportable ⟨.unknownInstruction, op.toNat⟩ := by
  refine ⟨Nat.le_of_lt_succ op.isLt, ?_⟩
  simpa [BitVec.toNat_eq] using h

/-- R120: and the record of an address above 255. -/
theorem reportable_outOfBounds {addr : Nat} (h : 255 < addr) : FaultRecord.Reportable ⟨.outOfBounds, addr⟩ := h

/-- R126, R127: a step that ends `Faulted` is a fault entry with a record its cause can report, on the state itself or on
the state with the fetched bytes latched. -/
theorem eq_raise_of_step (h : step s = .next t) (hf : t.engine = .faulted) :
    ∃ r l, r.Reportable ∧ (l = s.ir ∨ s.fetch = .ok l) ∧ t = (s.latch l).raise r := by
  obtain ⟨hr, ⟨-, rfl⟩ | ⟨-, op, a, b, -, -, -, hfetch, effect⟩⟩ := step_next_cases h
  · exact ⟨_, s.ir, reportable_outOfBounds (by omega), .inl rfl, rfl⟩
  have hrun : s.engine ≠ .faulted := by rw [hr]; decide
  rcases effect with ⟨-, rfl⟩ | ⟨_, -, rfl⟩ | ⟨_, _, -, rfl⟩ | ⟨_, -, rfl⟩ | ⟨k, hk, -, rfl⟩ | ⟨hop, rfl⟩
  · cases hf
  iterate 3 exact absurd hf hrun
  · exact ⟨_, _, reportable_invalidRegister hk, .inr hfetch, rfl⟩
  · exact ⟨_, _, reportable_unknownInstruction hop, .inr hfetch, rfl⟩

/-- What a step that completes does: it runs the instruction of the opcode byte `op` at `pc`, `w` bytes wide. -/
structure CompletesAs (s t : State) (op : Byte) (w : Nat) : Prop where
  /-- The fetch window lies in the memory (R71). -/
  pc_le : s.pc.toNat ≤ 253
  opcode : s.memRead s.pc.toNat = .ok op
  width : widthOfOpcode op = some w
  /-- `pc` advances as a natural number, without wrapping (R16). -/
  pc : t.pc.toNat = s.pc.toNat + w
  fault : t.fault = s.fault
  /-- Only an instruction two bytes wide emits, one value (R22). -/
  out_le : 2 * t.out.length ≤ 2 * s.out.length + w
  /-- HLT ends the run, every other instruction leaves the engine running (R18). -/
  engine : (op = 0x01 ∧ t.engine = .halted) ∨ (2 ≤ w ∧ op ≠ 0x01 ∧ t.engine = .running)

theorem CompletesAs.width_bounds (h : CompletesAs s t op w) : 1 ≤ w ∧ w ≤ 3 := by
  rcases opcode_width_cases h.width with ⟨-, rfl⟩ | ⟨-, rfl⟩ | ⟨-, rfl⟩ | ⟨-, rfl⟩ <;> decide

/-- R16: up to 253 an advance by at most three bytes does not reach the end of the 9-bit word. -/
theorem toNat_pc_add (hp : s.pc.toNat ≤ 253) (hw : w ≤ 3) : (s.pc + BitVec.ofNat 9 w).toNat = s.pc.toNat + w := by
  rw [BitVec.toNat_add, BitVec.toNat_ofNat]
  omega

/-- R75: a step that does not end `Faulted` completes. -/
theorem completesAs_of_step (h : step s = .next t) (hf : t.engine ≠ .faulted) : ∃ op w, CompletesAs s t op w := by
  obtain ⟨hr, ⟨-, rfl⟩ | ⟨hp, op, a, b, hop, -, -, -, effect⟩⟩ := step_next_cases h
  · exact absurd (State.raise_engine _ _) hf
  rcases effect with ⟨rfl, rfl⟩ | ⟨_, rfl, rfl⟩ | ⟨_, _, rfl, rfl⟩ | ⟨_, rfl, rfl⟩ | ⟨k, -, -, rfl⟩ | ⟨-, rfl⟩
  · exact ⟨0x01, 1, hp, hop, by decide, toNat_pc_add hp (by decide), rfl, Nat.le_add_right _ _, .inl ⟨rfl, rfl⟩⟩
  · exact ⟨0x82, 3, hp, hop, by decide, toNat_pc_add hp (by decide), rfl, Nat.le_add_right _ _,
      .inr ⟨by decide, by decide, hr⟩⟩
  · exact ⟨0xA2, 3, hp, hop, by decide, toNat_pc_add hp (by decide), rfl, Nat.le_add_right _ _,
      .inr ⟨by decide, by decide, hr⟩⟩
  · refine ⟨0x47, 2, hp, hop, by decide, toNat_pc_add hp (by decide), rfl, ?_, .inr ⟨by decide, by decide, hr⟩⟩
    rw [List.length_append, List.length_singleton, Nat.mul_add]
  iterate 2 exact absurd (State.raise_engine _ _) hf

/-- R31, R77: no step writes memory. -/
theorem step_mem (h : step s = .next t) : t.mem = s.mem := by
  obtain ⟨-, ⟨-, rfl⟩ | ⟨-, op, a, b, -, -, -, -, effect⟩⟩ := step_next_cases h
  · rfl
  rcases effect with ⟨-, rfl⟩ | ⟨_, -, rfl⟩ | ⟨_, _, -, rfl⟩ | ⟨_, -, rfl⟩ | ⟨_, -, -, rfl⟩ | ⟨-, rfl⟩
  all_goals rfl

/-- R22, R110: a step leaves the output log, or is a PRN that appends the value of its register. -/
theorem step_out_cases (h : step s = .next t) :
    t.out = s.out ∨ ∃ a v, s.memRead s.pc.toNat = .ok 0x47 ∧ s.memRead (s.pc.toNat + 1) = .ok a ∧
      s.readReg a = .ok v ∧ t.out = s.out ++ [v] := by
  obtain ⟨-, ⟨-, rfl⟩ | ⟨-, op, a, b, hop, ha, -, -, effect⟩⟩ := step_next_cases h
  · exact .inl rfl
  rcases effect with ⟨-, rfl⟩ | ⟨_, -, rfl⟩ | ⟨_, _, -, rfl⟩ | ⟨hlt, rfl, rfl⟩ | ⟨_, -, -, rfl⟩ | ⟨-, rfl⟩
  iterate 3 exact .inl rfl
  · exact .inr ⟨a, _, hop, ha, State.readReg_of_lt hlt, rfl⟩
  iterate 2 exact .inl rfl

/-- R12: a step leaves every register, or is an LDI or MUL that replaces the register of its first operand. -/
theorem step_x_cases (h : step s = .next t) :
    t.x = s.x ∨ ∃ op a, s.memRead s.pc.toNat = .ok op ∧ (op = 0x82 ∨ op = 0xA2) ∧
      s.memRead (s.pc.toNat + 1) = .ok a ∧ ∃ (ha : a.toNat < 8) (v : RegWord), t.x = s.x.set a.toNat v := by
  obtain ⟨-, ⟨-, rfl⟩ | ⟨-, op, a, b, hop, ha, -, -, effect⟩⟩ := step_next_cases h
  · exact .inl rfl
  rcases effect with ⟨-, rfl⟩ | ⟨hlt, rfl, rfl⟩ | ⟨hlt, _, rfl, rfl⟩ | ⟨_, -, rfl⟩ | ⟨_, -, -, rfl⟩ | ⟨-, rfl⟩
  · exact .inl rfl
  · exact .inr ⟨_, a, hop, .inl rfl, ha, hlt, _, rfl⟩
  · exact .inr ⟨_, a, hop, .inr rfl, ha, hlt, _, rfl⟩
  iterate 3 exact .inl rfl

/-- R19, R126: while the engine runs every step has a next state, a fault entry included. -/
theorem exists_step_of_running (hr : s.engine = .running) : ∃ t, step s = .next t := by
  rcases step_cases hr with ⟨-, e⟩ | ⟨-, l, -, ⟨i, -, e⟩ | ⟨-, e⟩⟩
  · exact ⟨_, e⟩
  · rw [e]
    rcases exec_cases i (s.latch l) with ⟨-, e⟩ | ⟨_, _, _, -, e⟩ | ⟨_, _, _, _, -, e⟩ | ⟨_, _, -, e⟩ | ⟨_, -, e⟩
    all_goals exact ⟨_, e⟩
  · exact ⟨_, e⟩

/-- R71: up to 253 the three reads of the fetch succeed. -/
theorem exists_fetch_of_le (hp : s.pc.toNat ≤ 253) :
    ∃ op a b, s.memRead s.pc.toNat = .ok op ∧ s.memRead (s.pc.toNat + 1) = .ok a ∧
      s.memRead (s.pc.toNat + 2) = .ok b ∧ s.fetch = .ok ⟨op, a, b⟩ :=
  ⟨_, _, _, memRead_pc_add (k := 0) (by omega), memRead_pc_add (by omega), memRead_pc_add (by omega), fetch_of_le hp⟩

/-- R90: an HLT whose window lies in the memory ends `Halted`. -/
theorem halted_of_step_hlt (h : step s = .next t) (hp : s.pc.toNat ≤ 253) (hop : s.memRead s.pc.toNat = .ok 0x01) :
    t.engine = .halted := by
  obtain ⟨op, a, b, h0, h1, h2, -⟩ := exists_fetch_of_le hp
  have hstep := (Proofs.hltStep.2 s a b (running_of_step h)).1 hop h1 h2
  cases h.symm.trans hstep
  rfl

end Sys2Proof.Machine

namespace Sys2Proof.Proofs

/-- Settles O15: a running engine has a next state by what a step can do, any other refuses by definition. -/
theorem stepExistsExactlyWhileRunning : Obligations.StepExistsExactlyWhileRunning :=
  fun _ => ⟨exists_step_of_running, step_of_not_running⟩

/-- Settles O16: three reads that succeed are the fetch, and a step runs what its fetched bytes decode to. -/
theorem stepRunsTheDecodedInstruction : Obligations.StepRunsTheDecodedInstruction :=
  fun _ _ _ _ _ hr h0 h1 h2 hd => step_of_fetch_decode hr (fetch_of_memRead h0 h1 h2) hd

/-- Settles O17: up to 253 by the three reads; from 254 to 256 the first address outside is 256. -/
theorem fetchWindowMustLieInMemory : Obligations.FetchWindowMustLieInMemory := by
  refine fun s => ⟨exists_fetch_of_le, fun hp hp' => ⟨?_, fun hr => step_of_fetch_fault hr hp hp'⟩⟩
  rw [fetch_of_gt hp, Nat.max_eq_left hp']

/-- Settles O24: a fault entry keeps pc; a step that completes advances it by the width of its opcode. -/
theorem stepAdvancesPcByWidthUnlessItFaults : Obligations.StepAdvancesPcByWidthUnlessItFaults := by
  refine fun s t h => ⟨fun hf => ?faulted, fun hf => ?completed⟩
  case faulted =>
    obtain ⟨r, l, -, -, rfl⟩ := eq_raise_of_step h hf
    rfl
  case completed =>
    obtain ⟨op, w, hc⟩ := completesAs_of_step h hf
    obtain ⟨hw1, hw3⟩ := hc.width_bounds
    refine ⟨op, w, hc.opcode, hc.width, hw1, hw3, hc.pc, ?_⟩
    have := hc.pc_le
    rw [hc.pc]
    omega

/-- Settles O25, part by part of the state; a register that differs is the one an LDI or MUL replaced. -/
theorem onlyTheNamedInstructionChangesEachPart : Obligations.OnlyTheNamedInstructionChangesEachPart := by
  refine fun s t h => ⟨step_mem h, step_out_cases h, fun j hj => ?_⟩
  rcases step_x_cases h with hx | ⟨op, a, hop, hrow, ha, hlt, v, hx⟩
  · exact absurd (by rw [hx]) hj
  · refine ⟨op, a, hop, hrow, ha, ?_⟩
    by_contra hne
    have hsame : t.x[j] = s.x[j] := by
      rw [hx]
      exact Vector.getElem_set_ne hlt j.isLt hne
    exact hj hsame

/-- Settles O26: a step that ends Halted completed as an HLT, and an HLT with its window in the memory completes. -/
theorem engineHaltsExactlyByHlt : Obligations.EngineHaltsExactlyByHlt := by
  intro s t h
  have completed : ∀ e, t.engine = e → e ≠ .faulted → ∃ op w, CompletesAs s t op w :=
    fun e he hne => completesAs_of_step h (he ▸ hne)
  refine ⟨running_of_step h, fun ht => ?notReady, ⟨fun ht => ?isHlt, fun ⟨hp, hop⟩ => halted_of_step_hlt h hp hop⟩,
    fun ht => ?running, fun ht => ?halted⟩
  case notReady =>
    obtain ⟨op, w, hc⟩ := completed _ ht (by decide)
    rcases hc.engine with ⟨-, he⟩ | ⟨-, -, he⟩ <;> cases ht.symm.trans he
  case isHlt =>
    obtain ⟨op, w, hc⟩ := completed _ ht (by decide)
    rcases hc.engine with ⟨rfl, -⟩ | ⟨-, -, he⟩
    · exact ⟨hc.pc_le, hc.opcode⟩
    · cases ht.symm.trans he
  all_goals
    obtain ⟨op, w, hc⟩ := completed _ ht (by decide)
    exact hc.fault

/-- Settles O29: a step that ends Faulted is a fault entry, on a state that at most has the fetched bytes latched. -/
theorem faultingStepChangesNothingElse : Obligations.FaultingStepChangesNothingElse := by
  intro s t h hf
  obtain ⟨r, l, -, hl, rfl⟩ := eq_raise_of_step h hf
  exact ⟨⟨r, rfl⟩, hl, step_of_not_running (by rw [hf]; decide)⟩

/-- Settles O30, rank by rank: the fetch, the lookup, the tag check, and the two index checks of MUL in their order. -/
theorem firstFaultInPriorityOrderIsReported : Obligations.FirstFaultInPriorityOrderIsReported := by
  refine ⟨fun s hr hp hp' => ?fetch, fun s op hr hp hop hw => ?opcode, fun s op a b h0 h1 => aluApply_of_ne h0 h1 a b,
    fun s a b ha => ?operandA, fun s a b ha hb => ?operandB⟩
  case fetch => exact ⟨_, step_of_fetch_fault hr hp hp', State.raise_fault _ _⟩
  case opcode =>
    obtain ⟨a, b, hstep⟩ := step_of_lookupOpcode_eq_none hr hp hop (Option.map_eq_none_iff.1 hw)
    exact ⟨_, hstep, State.raise_fault _ _⟩
  case operandA => exact ⟨_, execMul_of_ge_left ha, State.raise_fault _ _⟩
  case operandB => exact ⟨_, execMul_of_ge_right ha hb, State.raise_fault _ _⟩

end Sys2Proof.Proofs
end

section
/-! SUPPORT. The machine's invariant: at reset, after a raise, over a step, over a run of the host and over an image the
host loads; and the statements of spec/10_state.md, spec/60_exceptions.md and spec/80_blocks_and_interfaces.md this
settles. -/

open Sys2Proof Sys2Proof.Machine

namespace Sys2Proof.Machine

variable {s t : State} {r : FaultRecord}

theorem inv_reset : State.reset.Inv where
  mem_wf := Memory.wf_nil
  pc_le := by decide
  fault_iff := by decide
  reportable _ hr := nomatch hr
  ready_untouched _ := ⟨rfl, rfl, rfl, rfl⟩
  halted_pc h := nomatch h
  out_le := by decide

namespace State.Inv

/-- R20: outside `Faulted` there is no record. -/
theorem fault_eq_none (hs : s.Inv) (h : s.engine ≠ .faulted) : s.fault = none := by
  by_contra hne
  exact h (hs.fault_iff.1 hne)

/-- R126: the fault entry needs of the invariant only what it leaves as it was: memory, pc and output log. -/
theorem of_raise (hmem : Memory.wf s.mem) (hpc : s.pc.toNat ≤ 256) (hout : 2 * s.out.length ≤ s.pc.toNat)
    (hr : r.Reportable) : (s.raise r).Inv where
  mem_wf := hmem
  pc_le := hpc
  fault_iff := iff_of_true (Option.some_ne_none r) rfl
  reportable _ h := Option.some.inj h ▸ hr
  ready_untouched h := nomatch h
  halted_pc h := nomatch h
  out_le := hout

/-- R18: starting the engine of a `Ready` machine. -/
theorem setEngine_running (hs : s.Inv) (hr : s.engine = .ready) : (s.setEngine .running).Inv where
  mem_wf := hs.mem_wf
  pc_le := hs.pc_le
  fault_iff := iff_of_false (not_not.2 (hs.fault_eq_none (by rw [hr]; decide))) nofun
  reportable := hs.reportable
  ready_untouched h := nomatch h
  halted_pc h := nomatch h
  out_le := hs.out_le

/-- R33: a memory write that succeeds. -/
theorem of_memWrite (hs : s.Inv) {addr : Nat} {v : Byte} (hw : s.memWrite addr v = .ok t) : t.Inv := by
  have hmem := State.memWrite_wf hs.mem_wf hw
  obtain ⟨-, rfl⟩ := State.memWrite_eq_ok_iff.1 hw
  exact ⟨hmem, hs.pc_le, hs.fault_iff, hs.reportable, hs.ready_untouched, hs.halted_pc, hs.out_le⟩

end State.Inv

/-- A step that completes keeps the invariant: pc and output log by the width of the instruction, the record because the
engine that ran had none. -/
theorem CompletesAs.inv {op : Byte} {w : Nat} (hc : CompletesAs s t op w) (hs : s.Inv) (hr : s.engine = .running)
    (hmem : t.mem = s.mem) : t.Inv := by
  obtain ⟨hw1, hw3⟩ := hc.width_bounds
  have hp := hc.pc_le
  have hpc := hc.pc
  have hnone : t.fault = none := hc.fault.trans (hs.fault_eq_none (by rw [hr]; decide))
  have hengine : t.engine ≠ .ready ∧ t.engine ≠ .faulted := by
    rcases hc.engine with ⟨-, he⟩ | ⟨-, -, he⟩ <;> simp [he]
  refine ⟨hmem ▸ hs.mem_wf, by omega, iff_of_false (not_not.2 hnone) hengine.2, fun r hrec => ?record,
    fun h => absurd h hengine.1, fun h => ?halted, ?out⟩
  case record => cases hnone.symm.trans hrec
  case halted =>
    rcases hc.engine with ⟨rfl, -⟩ | ⟨-, -, he⟩
    · have hw : w = 1 := Option.some.inj (hc.width.symm.trans (show widthOfOpcode 0x01 = some 1 by decide))
      omega
    · cases h.symm.trans he
  case out =>
    have hold := hs.out_le
    have hnew := hc.out_le
    omega

theorem inv_of_step (hs : s.Inv) (h : step s = .next t) : t.Inv := by
  by_cases hf : t.engine = .faulted
  · obtain ⟨r, l, hr, -, rfl⟩ := eq_raise_of_step h hf
    exact .of_raise hs.mem_wf hs.pc_le hs.out_le hr
  · obtain ⟨op, w, hc⟩ := completesAs_of_step h hf
    exact hc.inv hs (running_of_step h) (step_mem h)

/-- R77: outside `Running` the loop of Run ends. -/
theorem runWhile_of_not_running (hr : s.engine ≠ .running) (fuel : Nat) : runWhile fuel s = .next s := by
  cases fuel with
  | zero => rfl
  | succ fuel => rw [runWhile, if_neg (mt State.running_iff.1 hr)]

/-- R77: one turn of the loop of Run. -/
theorem runWhile_of_step (h : step s = .next t) (fuel : Nat) : runWhile (fuel + 1) s = runWhile fuel t := by
  rw [runWhile, if_pos (State.running_iff.2 (running_of_step h)), h]

/-- R77: what every step keeps, the loop of Run keeps. -/
theorem runWhile_induction {P : State → Prop} (hstep : ∀ s t, P s → step s = .next t → P t) (fuel : Nat) :
    ∀ s t, P s → runWhile fuel s = .next t → P t := by
  induction fuel with
  | zero =>
    intro s t hs h
    cases h
    exact hs
  | succ fuel ih =>
    intro s t hs h
    by_cases hr : s.engine = .running
    · obtain ⟨u, hu⟩ := exists_step_of_running hr
      rw [runWhile_of_step hu] at h
      exact ih u t (hstep s u hs hu) h
    · rw [runWhile_of_not_running hr] at h
      cases h
      exact hs

/-- R177: the loop of Load keeps the invariant: each byte is a write that succeeds or the fault entry that ends it. -/
theorem inv_loadFrom (image : List Byte) : ∀ (k : Nat) {s : State}, s.Inv → (loadFrom k image s).Inv := by
  induction image with
  | nil => exact fun _ _ hs => hs
  | cons v rest ih =>
    intro k s hs
    by_cases hk : k < 256
    · have hw := State.memWrite_of_lt (s := s) (b := v) hk
      simp only [loadFrom, hw]
      exact ih (k + 1) (hs.of_memWrite hw)
    · have hk := Nat.le_of_not_lt hk
      simp only [loadFrom, State.memWrite_of_ge hk]
      exact .of_raise hs.mem_wf hs.pc_le hs.out_le (reportable_outOfBounds hk)

/-- R175: a host operation that answers a state was used in `Ready`, and the state is its effect's. -/
theorem inReady_eq_next {effect : Host.Outcome State Fault Refusal} (h : inReady s effect = .next t) :
    s.engine = .ready ∧ effect = .next t := by
  by_cases hr : s.engine = .ready
  · exact ⟨hr, (inReady_of_ready hr effect).symm.trans h⟩
  · rw [inReady, if_neg hr] at h
    cases h

theorem inv_of_hostWrite {addr : Nat} {v : Byte} (hs : s.Inv) (h : hostWrite addr v s = .next t) : t.Inv := by
  obtain ⟨-, h⟩ := inReady_eq_next h
  by_cases ha : addr < 256
  · have hw := State.memWrite_of_lt (s := s) (b := v) ha
    rw [hw] at h
    cases h
    exact hs.of_memWrite hw
  · have ha := Nat.le_of_not_lt ha
    rw [State.memWrite_of_ge ha] at h
    cases h
    exact .of_raise hs.mem_wf hs.pc_le hs.out_le (reportable_outOfBounds ha)

theorem inv_of_hostLoad {image : List Byte} (hs : s.Inv) (h : hostLoad image s = .next t) : t.Inv := by
  obtain ⟨-, h⟩ := inReady_eq_next h
  cases h
  exact inv_loadFrom image 0 hs

theorem inv_of_hostRun (hs : s.Inv) (h : hostRun s = .next t) : t.Inv := by
  obtain ⟨hr, h⟩ := inReady_eq_next h
  exact runWhile_induction (fun _ _ => inv_of_step) _ _ _ (hs.setEngine_running hr) h

end Sys2Proof.Machine

namespace Sys2Proof.Proofs

/-- Settles O34: a step that faults is a fault entry with a reportable record, a step that completes advances pc by a width
that covers what it emits. -/
theorem stepKeepsMachineInvariant : Obligations.StepKeepsMachineInvariant := fun _ _ => inv_of_step

/-- Settles O33, field by field of the reset state. -/
theorem resetMeetsMachineInvariant : Obligations.ResetMeetsMachineInvariant := inv_reset

/-- Settles O35, operation by operation. -/
theorem hostOperationsKeepMachineInvariant : Obligations.HostOperationsKeepMachineInvariant :=
  fun _ hs => ⟨inv_reset, fun _ _ _ => inv_of_hostWrite hs, fun _ _ => inv_of_hostLoad hs, fun _ => inv_of_hostRun hs⟩

end Sys2Proof.Proofs
end

section
/-! SUPPORT. The end of a run: the bound on its steps and what it leaves, and the statements of
spec/40_fetch_decode_dispatch.md and spec/70_reset_and_hazards.md this settles. -/

open Sys2Proof Sys2Proof.Machine

namespace Sys2Proof.Machine

variable {s t : State} {n fuel : Nat}

/-- R18: the terminal states. -/
theorem State.terminal_iff : s.terminal = true ↔ s.engine = .halted ∨ s.engine = .faulted := by
  simp [State.terminal]

theorem State.not_running_of_terminal (h : s.terminal = true) : s.engine ≠ .running := by
  rcases State.terminal_iff.1 h with h | h <;> simp [h]

/-- R79: the most steps left to a run whose engine is at this `pc`. -/
def State.stepBound (s : State) : Nat := (255 - s.pc.toNat) / 2 + 1

/-- R79: a step ends the run, or advances by at least two bytes and so leaves a step less. -/
theorem terminal_or_stepBound_lt (h : step s = .next t) :
    t.terminal = true ∨ (t.engine = .running ∧ t.stepBound < s.stepBound) := by
  by_cases hf : t.engine = .faulted
  · exact .inl (State.terminal_iff.2 (.inr hf))
  obtain ⟨op, w, hc⟩ := completesAs_of_step h hf
  rcases hc.engine with ⟨-, he⟩ | ⟨hw, -, he⟩
  · exact .inl (State.terminal_iff.2 (.inl he))
  · have hp := hc.pc_le
    have hpc := hc.pc
    exact .inr ⟨he, by rw [State.stepBound, State.stepBound]; omega⟩

/-- R79: with the bound as fuel a run reaches a terminal state, by induction on the steps left. -/
theorem exists_run_terminal (bound : Nat) : ∀ s : State, s.engine = .running → s.stepBound ≤ bound →
    ∃ n t, n ≤ bound ∧ Host.Core.run Sys2Proof.core n s = .next t ∧ t.terminal = true := by
  induction bound with
  | zero => exact fun s _ hb => absurd hb (Nat.not_succ_le_zero _)
  | succ bound ih =>
    intro s hr hb
    obtain ⟨t, ht⟩ := exists_step_of_running hr
    rcases terminal_or_stepBound_lt ht with hterm | ⟨hr', hlt⟩
    · exact ⟨1, t, Nat.succ_le_succ (Nat.zero_le _), core_run_next ht 0, hterm⟩
    · obtain ⟨n, u, hn, hrun, hterm⟩ := ih t hr' (by omega)
      exact ⟨n + 1, u, Nat.succ_le_succ hn, (core_run_next ht n).trans hrun, hterm⟩

/-- The loop of Run, given fuel enough, answers the terminal state that some number of steps reaches. -/
theorem runWhile_of_core_run (hterm : t.terminal = true) (n : Nat) : ∀ {fuel s}, n ≤ fuel →
    Host.Core.run Sys2Proof.core n s = .next t → runWhile fuel s = .next t := by
  induction n with
  | zero =>
    intro fuel s _ h
    cases h
    exact runWhile_of_not_running (State.not_running_of_terminal hterm) fuel
  | succ n ih =>
    intro fuel s hn h
    by_cases hr : s.engine = .running
    · obtain ⟨u, hu⟩ := exists_step_of_running hr
      obtain ⟨m, rfl⟩ : ∃ m, fuel = m + 1 := ⟨fuel - 1, by omega⟩
      rw [runWhile_of_step hu]
      exact ih (Nat.le_of_succ_le_succ hn) ((core_run_next hu n).symm.trans h)
    · cases (core_run_stopped hr n).symm.trans h

/-- What a run keeps of the state it started from: the memory, and the record until a fault sets one (R20, R31). -/
structure RunKeeps (s t : State) : Prop where
  mem : t.mem = s.mem
  fault : t.engine ≠ .faulted → t.fault = s.fault
  record : t.engine = .faulted → t.fault ≠ none

theorem RunKeeps.step {u : State} (hk : RunKeeps s u) (h : Machine.step u = .next t) : RunKeeps s t where
  mem := (step_mem h).trans hk.mem
  fault hf := by
    obtain ⟨op, w, hc⟩ := completesAs_of_step h hf
    exact hc.fault.trans (hk.fault (by rw [running_of_step h]; decide))
  record hf := by
    obtain ⟨r, l, -, -, rfl⟩ := eq_raise_of_step h hf
    exact Option.some_ne_none r

theorem State.exists_exitStatus_of_terminal (h : s.terminal = true) : ∃ n, s.exitStatus = some n := by
  rcases State.terminal_iff.1 h with h | h
  · exact ⟨_, State.exitStatus_of_halted h⟩
  · exact ⟨_, State.exitStatus_of_faulted h⟩

theorem State.stepBound_le (s : State) : s.stepBound ≤ 128 := by
  rw [State.stepBound]
  omega

end Sys2Proof.Machine

namespace Sys2Proof.Proofs

/-- Settles O31: the bound that falls with every step is at most 128 from any pc. -/
theorem everyRunEndsWithinItsBound : Obligations.EveryRunEndsWithinItsBound := by
  intro s hr
  obtain ⟨n, t, hn, hrun, hterm⟩ := exists_run_terminal s.stepBound s hr le_rfl
  exact ⟨n, t, hn, hn.trans s.stepBound_le, hrun, hterm⟩

/-- Settles O38: the steps to a terminal state fit the loop's fuel, and what a step keeps the loop keeps. -/
theorem runAlwaysEndsTerminal : Obligations.RunAlwaysEndsTerminal := by
  intro s hready
  obtain ⟨n, t, hn, hrun, hterm⟩ :=
    exists_run_terminal maxRunSteps (s.setEngine .running) (State.setEngine_engine _ _) (State.stepBound_le _)
  have hloop := runWhile_of_core_run hterm n hn hrun
  have hkeeps : RunKeeps (s.setEngine .running) t :=
    runWhile_induction (fun _ _ => RunKeeps.step) _ _ _ ⟨rfl, fun _ => rfl, nofun⟩ hloop
  exact ⟨t, (inReady_of_ready hready _).trans hloop, hterm, hkeeps.mem, State.exists_exitStatus_of_terminal hterm,
    fun hh => hkeeps.fault (by rw [hh]; decide), hkeeps.record⟩

/-- Settles O39: the first byte fetched is 0, which has no row of the map, and its fault entry ends the loop. -/
theorem runWithNothingLoadedFaultsAtZero : Obligations.RunWithNothingLoadedFaultsAtZero := by
  have hstep : step (State.reset.setEngine .running) = .next (State.reset.raise ⟨.unknownInstruction, 0x00⟩) := rfl
  calc hostRun State.reset
    _ = runWhile (127 + 1) (State.reset.setEngine .running) := inReady_of_ready rfl _
    _ = runWhile 127 (State.reset.raise ⟨.unknownInstruction, 0x00⟩) := runWhile_of_step hstep 127
    _ = .next (State.reset.raise ⟨.unknownInstruction, 0x00⟩) := runWhile_of_not_running (by decide) 127

end Sys2Proof.Proofs
end

section
/-! SUPPORT. Reads of memory after an image was loaded, and the statements of spec/70_reset_and_hazards.md and
spec/80_blocks_and_interfaces.md about Reset, Load and the states in which the host may act. -/

open Sys2Proof Sys2Proof.Machine

namespace Sys2Proof.Machine

variable {s : State} {k : Nat} {image : List Byte}

/-- The memory with the bytes of an image written one after another from address `k` on. -/
def Memory.load (m : List Host.Cell) : Nat → List Byte → List Host.Cell
  | _, [] => m
  | k, v :: rest => Memory.load (Memory.set m k v) (k + 1) rest

/-- R177: an image that ends inside the memory is written in full, and nothing but memory changes. -/
theorem loadFrom_of_fits (image : List Byte) : ∀ (k : Nat) (s : State), k + image.length ≤ 256 →
    loadFrom k image s = { s with mem := Memory.load s.mem k image } := by
  induction image with
  | nil => exact fun _ _ _ => rfl
  | cons v rest ih =>
    intro k s hfits
    rw [List.length_cons] at hfits
    simp only [loadFrom, State.memWrite_of_lt (show k < 256 by omega)]
    exact ih (k + 1) _ (by omega)

/-- R177, D12: an image that does not fit is written as far as address 255, then the write at 256 raises. -/
theorem loadFrom_of_overflows (image : List Byte) : ∀ (k : Nat) (s : State), k ≤ 256 → 256 < k + image.length →
    loadFrom k image s =
      State.raise { s with mem := Memory.load s.mem k (image.take (256 - k)) } ⟨.outOfBounds, 256⟩ := by
  induction image with
  | nil => exact fun _ _ hk hlong => absurd hlong (Nat.not_lt.2 hk)
  | cons v rest ih =>
    intro k s hk hlong
    rw [List.length_cons] at hlong
    rcases Nat.lt_or_eq_of_le hk with hk | rfl
    · have htake : (v :: rest).take (256 - k) = v :: rest.take (256 - (k + 1)) := by
        rw [show 256 - k = 256 - (k + 1) + 1 by omega, List.take_succ_cons]
      simp only [loadFrom, State.memWrite_of_lt hk]
      rw [ih (k + 1) _ hk (by omega), htake, Memory.load]
    · simp only [loadFrom, State.memWrite_of_ge le_rfl]
      rfl

/-- A cell outside the image keeps its byte. -/
theorem Memory.get_load_outside (image : List Byte) : ∀ {k : Nat} {m : List Host.Cell} {b : Nat}, Memory.wf m →
    k + image.length ≤ 256 → b < k ∨ k + image.length ≤ b → Memory.get (Memory.load m k image) b = Memory.get m b := by
  induction image with
  | nil => exact fun _ _ _ => rfl
  | cons v rest ih =>
    intro k m b hm hfits hb
    rw [List.length_cons] at hfits hb
    rw [Memory.load, ih (Memory.set_wf hm (by omega) v) (by omega) (by omega), Memory.get_set hm, if_neg (by omega)]

/-- The cell `i` places after the first holds the image's byte `i`. -/
theorem Memory.get_load_inside (image : List Byte) : ∀ {k : Nat} {m : List Host.Cell} {i : Nat}, Memory.wf m →
    k + image.length ≤ 256 → ∀ hi : i < image.length, Memory.get (Memory.load m k image) (k + i) = image[i] := by
  induction image with
  | nil => exact fun _ _ hi => nomatch hi
  | cons v rest ih =>
    intro k m i hm hfits hi
    rw [List.length_cons] at hfits hi
    have hm' := Memory.set_wf hm (show k < 256 by omega) v
    cases i with
    | zero =>
      rw [Memory.load, Nat.add_zero, Memory.get_load_outside rest hm' (by omega) (.inl (by omega)), Memory.get_set hm]
      exact if_pos rfl
    | succ i =>
      rw [Memory.load, show k + (i + 1) = k + 1 + i by omega, ih hm' (by omega) (by omega)]
      rfl

/-- R177: in `Ready`, Load answers the end of its loop. -/
theorem hostLoad_of_ready (hr : s.engine = .ready) (image : List Byte) :
    hostLoad image s = .next (loadFrom 0 image s) := inReady_of_ready hr _

/-- R175: outside `Ready` an operation of the host is refused. -/
theorem inReady_of_not_ready (hr : s.engine ≠ .ready) (effect : Host.Outcome State Fault Refusal) :
    inReady s effect = .refused (.hostNotReady s.engine) := if_neg hr

end Sys2Proof.Machine

namespace Sys2Proof.Proofs

/-- Settles O32: the memory of reset lists no cell, and every register is one of eight zeros; the other fields are written
out in the definition. -/
theorem resetGivesTheTableOfResetValues : Obligations.ResetGivesTheTableOfResetValues := by
  refine fun s => ⟨fun a ha => ?_, rfl, rfl, fun i => ?_, rfl, rfl, rfl, rfl⟩
  · exact State.memRead_of_lt (Nat.lt_succ_of_le ha)
  · exact Vector.getElem_replicate i.isLt

/-- Settles O37: an image that fits is loaded whole, a longer one as its first 256 bytes, and then the fault is taken; a
read inside what was loaded gives the image's byte, a read outside the old one. -/
theorem loadCopiesTheImageFromAddressZero : Obligations.LoadCopiesTheImageFromAddressZero := by
  refine fun s image hr hm => ⟨fun hfits => ?fits, fun hlong => ?overflows⟩
  case fits =>
    have hlen : 0 + image.length ≤ 256 := by omega
    refine ⟨_, (hostLoad_of_ready hr image).trans (congrArg _ (loadFrom_of_fits image 0 s hlen)), rfl,
      fun k hk => ?_, fun k hk => ?_⟩
    · have hget := Memory.get_load_inside image hm hlen hk
      rw [Nat.zero_add] at hget
      rw [State.memRead_of_lt (by omega), hget]
    · by_cases hk' : k < 256
      · rw [State.memRead_of_lt hk', State.memRead_of_lt hk',
          Memory.get_load_outside image hm hlen (.inr (by omega))]
      · have hk' := Nat.le_of_not_lt hk'
        rw [State.memRead_of_ge hk', State.memRead_of_ge hk']
  case overflows =>
    have hlen : 0 + (image.take 256).length ≤ 256 := by rw [List.length_take]; omega
    refine ⟨_, (hostLoad_of_ready hr image).trans
      (congrArg _ (loadFrom_of_overflows image 0 s (by decide) (by omega))), rfl, fun k hk hk' => ?_⟩
    have hget := Memory.get_load_inside (image.take 256) (i := k) hm hlen (by rw [List.length_take]; omega)
    rw [Nat.zero_add, List.getElem_take] at hget
    rw [State.memRead_of_lt (by omega)]
    exact congrArg _ hget

/-- Settles O40: the three operations are guarded by `Ready`, Reset is not. -/
theorem hostOperationsRefusedOutsideReady : Obligations.HostOperationsRefusedOutsideReady :=
  fun _ hr => ⟨fun _ _ => inReady_of_not_ready hr _, fun _ => inReady_of_not_ready hr _, inReady_of_not_ready hr _, rfl⟩

end Sys2Proof.Proofs
end

section
/-! SUPPORT. The bytes of a placed instruction read back, and the statement about the next step this settles. -/

open Sys2Proof Sys2Proof.Machine

namespace Sys2Proof.Machine

variable {s : State} {m : List Host.Cell} {p : Nat}

/-- The three bytes placed at `p` are the ones read there. -/
theorem Memory.get_place (hm : Memory.wf m) (hp : p ≤ 253) (b0 b1 b2 : Byte) :
    Memory.get (Memory.place m p b0 b1 b2) p = b0 ∧ Memory.get (Memory.place m p b0 b1 b2) (p + 1) = b1 ∧
      Memory.get (Memory.place m p b0 b1 b2) (p + 2) = b2 := by
  have hm0 := Memory.set_wf hm (show p < 256 by omega) b0
  have hm1 := Memory.set_wf hm0 (show p + 1 < 256 by omega) b1
  simp [Memory.place, Memory.get_set hm1, Memory.get_set hm0, Memory.get_set hm]

/-- R155: an instruction is placed where its fetch window lies in the memory. -/
theorem State.placeAt_le (s : State) : s.placeAt.toNat ≤ 253 := by
  unfold State.placeAt
  split
  · assumption
  · decide

theorem fetch_withFetchWord (hm : Memory.wf s.mem) (nbits w : Nat) :
    (s.withFetchWord nbits w).fetch = .ok ⟨tableByte nbits w 0, tableByte nbits w 1, tableByte nbits w 2⟩ := by
  obtain ⟨h0, h1, h2⟩ :=
    Memory.get_place hm s.placeAt_le (tableByte nbits w 0) (tableByte nbits w 1) (tableByte nbits w 2)
  have hfetch := fetch_of_le (s := s.withFetchWord nbits w) s.placeAt_le
  simp only [State.withFetchWord, h0, h1, h2] at hfetch ⊢
  exact hfetch

theorem decode_of_decodeTableWord {nbits w : Nat} {i : Instr} (h : decodeTableWord nbits w = some i) :
    decode (tableByte nbits w 0) (tableByte nbits w 1) (tableByte nbits w 2) = .ok i := by
  rw [decodeTableWord] at h
  split at h
  · next hd => rw [hd, Option.some.inj h]
  · cases h

end Sys2Proof.Machine

namespace Sys2Proof.Proofs

/-- Settles O46: the step fetches the placed bytes, which decode to the instruction. -/
theorem placedInstructionIsRunNext : Obligations.PlacedInstructionIsRunNext :=
  fun _ nbits w _ hm hd => step_of_fetch_decode rfl (fetch_withFetchWord hm nbits w) (decode_of_decodeTableWord hd)

end Sys2Proof.Proofs
end

section
/-! SUPPORT. Numerals and register values can be read off the trace line, engine states and causes off the status ports;
and the statements of spec/80_blocks_and_interfaces.md this settles. -/

open Sys2Proof Sys2Proof.Machine

namespace Sys2Proof.Machine

variable {s u : State} {l l' : List Char}

/-- R182: the sixteen hexadecimal digits differ. -/
theorem hexDigit_injective : Function.Injective fun d : Fin 16 => hexDigit d.val := by decide

theorem hexDigit_inj {a b : Nat} (ha : a < 16) (hb : b < 16) : hexDigit a = hexDigit b ↔ a = b :=
  ⟨fun h => congrArg Fin.val (@hexDigit_injective ⟨a, ha⟩ ⟨b, hb⟩ h), congrArg hexDigit⟩

/-- R182: a line that goes on after a two-digit numeral determines the number and how it goes on. -/
theorem hex2_append_inj {n m : Nat} (hn : n < 256) (hm : m < 256) :
    hex2 n ++ l = hex2 m ++ l' ↔ n = m ∧ l = l' := by
  simp only [hex2, List.cons_append, List.nil_append, List.cons.injEq,
    hexDigit_inj (show n / 16 < 16 by omega) (show m / 16 < 16 by omega),
    hexDigit_inj (Nat.mod_lt n (by decide)) (Nat.mod_lt m (by decide))]
  constructor
  · rintro ⟨hdiv, hmod, hl⟩
    exact ⟨by omega, hl⟩
  · rintro ⟨rfl, hl⟩
    exact ⟨rfl, rfl, hl⟩

theorem hex2_byte_append_inj {b c : Byte} : hex2 b.toNat ++ l = hex2 c.toNat ++ l' ↔ b = c ∧ l = l' := by
  rw [hex2_append_inj b.isLt c.isLt, BitVec.toNat_inj]

theorem traceRegs_cons (v : RegWord) (x : List RegWord) : traceRegs (v :: x) = ' ' :: (hex2 v.toNat ++ traceRegs x) := rfl

/-- R182: three characters for each register value. -/
theorem length_traceRegs (x : List RegWord) : (traceRegs x).length = 3 * x.length := by
  induction x with
  | nil => rfl
  | cons v x ih =>
    rw [traceRegs_cons, List.length_cons, List.length_append, ih, List.length_cons]
    simp only [hex2, List.length_cons, List.length_nil]
    omega

theorem traceRegs_injective : Function.Injective traceRegs := by
  intro x
  induction x with
  | nil =>
    intro y h
    cases y with
    | nil => rfl
    | cons w y => cases h
  | cons v x ih =>
    intro y h
    cases y with
    | nil => cases h
    | cons w y =>
      rw [traceRegs_cons, traceRegs_cons, List.cons.injEq, hex2_byte_append_inj] at h
      obtain ⟨-, rfl, hx⟩ := h
      rw [ih hx]

/-- The trace line without its newline (R182). -/
def State.traceLine (s : State) : List Char :=
  ['T', 'R', 'A', 'C', 'E', ':', ' '] ++ hex2 s.pc.toNat ++ [' ', '|', ' '] ++ hex2 (s.byteFromPc 0).toNat ++ [' '] ++
    hex2 (s.byteFromPc 1).toNat ++ [' '] ++ hex2 (s.byteFromPc 2).toNat ++ [' ', '|'] ++ traceRegs s.x.toList

theorem trace_of_le (hp : s.pc.toNat ≤ 253) : s.trace = some (s.traceLine ++ ['\n']) := by
  have h0 := memRead_pc_add (s := s) (k := 0) (by omega)
  rw [Nat.add_zero] at h0
  rw [State.trace, h0, memRead_pc_add (by omega), memRead_pc_add (by omega)]
  rfl

/-- D15: where the last lookahead address is out of bounds there is no line. -/
theorem trace_of_gt (hp : 253 < s.pc.toNat) : s.trace = none := by
  unfold State.trace
  split
  · next h2 =>
    rw [State.memRead_of_ge (by omega)] at h2
    cases h2
  · rfl

theorem length_traceLine (s : State) : s.traceLine.length = 46 := by
  simp only [State.traceLine, List.length_append, length_traceRegs, hex2, List.length_cons, List.length_nil,
    Vector.length_toList]

/-- Equal lines show equal program counters, equal bytes there and equal registers (R182). -/
theorem traceLine_eq_iff (hs : s.pc.toNat ≤ 253) (hu : u.pc.toNat ≤ 253) :
    s.traceLine = u.traceLine ↔ s.pc = u.pc ∧ s.byteFromPc 0 = u.byteFromPc 0 ∧ s.byteFromPc 1 = u.byteFromPc 1 ∧
      s.byteFromPc 2 = u.byteFromPc 2 ∧ s.x = u.x := by
  simp only [State.traceLine, List.append_assoc, List.append_cancel_left_eq,
    hex2_append_inj (show s.pc.toNat < 256 by omega) (show u.pc.toNat < 256 by omega), hex2_byte_append_inj,
    traceRegs_injective.eq_iff, BitVec.toNat_inj, Vector.toList_inj]

theorem EngineState.code_injective : Function.Injective EngineState.code := by
  intro e e' h
  cases e <;> cases e' <;> simp [EngineState.code] at h ⊢

/-- R120, D7: no cause has the code 0, which stands for none. -/
theorem Cause.code_ne_zero (c : Cause) : c.code ≠ 0 := by
  cases c <;> decide

theorem State.statePort_eq_code_iff (s : State) (e : EngineState) : s.statePort = e.code ↔ s.engine = e :=
  EngineState.code_injective.eq_iff

theorem State.faultCausePort_eq_zero_iff (s : State) : s.faultCausePort = 0 ↔ s.fault = none := by
  rw [State.faultCausePort]
  cases s.fault with
  | none => exact iff_of_true rfl rfl
  | some r => exact iff_of_false r.cause.code_ne_zero (Option.some_ne_none r)

end Sys2Proof.Machine

namespace Sys2Proof.Proofs

/-- Settles O41: up to 253 the line exists and each of its parts can be read back; above, the line of an equal trace could
not exist. -/
theorem traceLineShowsPcBytesAndRegisters : Obligations.TraceLineShowsPcBytesAndRegisters := by
  refine ⟨fun s => trace_of_gt, fun s hp => ⟨s.traceLine, trace_of_le hp, length_traceLine s, rfl⟩, fun s u hs h => ?_⟩
  have hu : u.pc.toNat ≤ 253 := by
    by_contra hu
    rw [trace_of_le hs, trace_of_gt (Nat.lt_of_not_le hu)] at h
    cases h
  rw [trace_of_le hs, trace_of_le hu] at h
  obtain ⟨hpc, h0, h1, h2, hx⟩ := (traceLine_eq_iff hs hu).1 (List.append_cancel_right (Option.some.inj h))
  have hfetch : ∀ {v : State}, v.pc.toNat ≤ 253 → v.fetch = .ok ⟨v.byteFromPc 0, v.byteFromPc 1, v.byteFromPc 2⟩ :=
    fetch_of_le
  exact ⟨hpc, by rw [hfetch hs, hfetch hu, h0, h1, h2], hx⟩

/-- Settles O42: the codes of the engine states differ, no cause has code 0, and an info below 512 fits 9 bits. -/
theorem statusPortsCarryEngineAndFault : Obligations.StatusPortsCarryEngineAndFault := by
  refine fun s => ⟨s.statePort_eq_code_iff .ready, s.statePort_eq_code_iff .running, s.statePort_eq_code_iff .halted,
    s.statePort_eq_code_iff .faulted, s.faultCausePort_eq_zero_iff, fun h => ?_, fun r h hr => ?_⟩
  · rw [State.faultInfoPort, h]
  · rw [State.faultInfoPort, h]
    exact Nat.mod_eq_of_lt hr

end Sys2Proof.Proofs
end
